-- ==== Sys2Proof/Word.lean ====
section
/-! DEFINITION. The two word types of the controller: the 32-bit command word of 30_encoding.md rule R61 and the
8-bit byte of 00_scope.md rule R10. -/

namespace Sys2Proof

/-- A command word on the host port (R60, R61); bit 31 is the most significant. -/
abbrev Word := BitVec 32

/-- A byte, bits 7 down to 0 (R10). -/
abbrev Byte := BitVec 8

end Sys2Proof
end

