-- ==== Sys2Proof/Config.lean ====
section
/-! DEFINITION. What a build fixes (00_scope.md rules R7 and R8) and the one value that nothing in the spec determines, the
level an environment about which nothing is assumed presents on `dataOut` (10_state.md rule R27). -/

namespace Sys2Proof

/-- The settle delay in microseconds, one named constant (R8). -/
def Config.settleUs : Nat := 5

/-- The largest shadow buffer, in bytes (R7). -/
def Config.maxBytes : Nat := 4095

/-- FREE VALUE. The level on the `dataOut` line at the k-th `Get` event, where no reference chain is attached (R27: "a free
input (an oracle)"). It has no body, so a statement about it holds for every sequence of levels. Log entry 5, safe. -/
opaque Config.dataOutLevel : Nat → Bool

/-- The build parameter `LAYER`, with `N`, which exists only in a `STATEFUL` build (R7). -/
inductive Layer where
  | protocol
  | stateful (n : Nat)
deriving DecidableEq, Repr

/-- The build parameters (R7). The lines `data`, `clock` and `latch` are always present (R9). -/
structure Build where
  layer : Layer
  hasClear : Bool
  hasDout : Bool
  hasOe : Bool
deriving DecidableEq, Repr

end Sys2Proof
end

