-- ==== Sys2Proof/Syntax.lean ====
section
/-! DEFINITION. The nine commands of 30_encoding.md rule R63, with their operands assembled as rule R62 says. -/

namespace Sys2Proof

/-- The two layers a command can belong to (R2, R63). -/
inductive LayerName where
  | protocol
  | stateful
deriving DecidableEq, Repr

/-- The commands, one constructor per row of the opcode map (R63). A Boolean operand is `true` for 1 (R10, R62). -/
inductive Instr where
  /-- `PUSHBIT s` (R80). -/
  | pushBit (bit : Bool)
  /-- `PUSHBYTE b` (R81). -/
  | pushByte (byte : Byte)
  /-- `READBIT` (R82). -/
  | readBit
  /-- `READBYTE pb` (R83). -/
  | readByte (pushBack : Bool)
  /-- `CLEAR`, the Protocol layer's (R85). -/
  | clear
  /-- `SHOW` (R86). -/
  | showOut
  /-- `SETOE s` (R87). -/
  | setOe (enabled : Bool)
  /-- `SCLEAR`, the State-Based Register's clear (R101). -/
  | sClear
  /-- `SWRITE pin, s` (R104); `pin` is the integer -32768..32767 that the word's `arg` field denotes (R62). -/
  | sWrite (pin : Int) (bit : Bool)
deriving DecidableEq, Repr

/-- The layer column of the opcode map (R63). -/
def Instr.layer : Instr → LayerName
  | .pushBit _ => .protocol
  | .pushByte _ => .protocol
  | .readBit => .protocol
  | .readByte _ => .protocol
  | .clear => .protocol
  | .showOut => .protocol
  | .setOe _ => .protocol
  | .sClear => .stateful
  | .sWrite _ _ => .stateful

end Sys2Proof
end

