-- ==== Sys2Proof/WellFormed.lean ====
section
/-! DEFINITION. Which commands a command word can spell: every operand's type is exact but `pin`, whose range is that of a
16-bit two's-complement field (30_encoding.md rule R62). -/

namespace Sys2Proof

/-- The command's operands fit the fields of R61 and R62. -/
def Instr.wellFormed : Instr → Bool
  | .pushBit _ => true
  | .pushByte _ => true
  | .readBit => true
  | .readByte _ => true
  | .clear => true
  | .showOut => true
  | .setOe _ => true
  | .sClear => true
  | .sWrite pin _ => decide (-32768 ≤ pin) && decide (pin ≤ 32767)

end Sys2Proof
end

