-- ==== Sys2Proof/Decode.lean ====
section
/-! DEFINITION. From a command word to a command and back: the fields of 30_encoding.md rule R61, the opcode map of rule R63,
the illegal words of rule R65 (a) to (e). Whether the command belongs to the build's layer, R65 (f), is a property of the
machine and is checked where it runs. -/

namespace Sys2Proof

/-- Why a word is illegal (R65). -/
inductive Illegal where
  /-- R65 (a): `op` is 0x0 or 0xA to 0xF. -/
  | reservedOpcode
  /-- R65 (b): `rsv` is not 0. -/
  | reservedBits
  /-- R65 (c): `f` is 1 in a command with no Boolean operand. -/
  | booleanSet
  /-- R65 (d), (e): `arg` has a bit set that the command does not use. -/
  | argumentSet
deriving DecidableEq, Repr

/-- What the decoder answers, for every word. -/
inductive Decoded where
  | command (i : Instr)
  | illegal (why : Illegal)
deriving DecidableEq, Repr

/-- `op`, bits 31:28 (R61). -/
def opField (w : Word) : BitVec 4 := w.extractLsb' 28 4

/-- `rsv`, bits 27:17 (R61). -/
def rsvField (w : Word) : BitVec 11 := w.extractLsb' 17 11

/-- `f`, bit 16, as a Boolean (R61, R62). -/
def fField (w : Word) : Bool := w.getLsbD 16

/-- `arg`, bits 15:0 (R61). -/
def argField (w : Word) : BitVec 16 := w.extractLsb' 0 16

/-- The byte operand, `arg[7:0]` (R62). -/
def argByte (a : BitVec 16) : Byte := a.extractLsb' 0 8

/-- The bits of `arg` that `PUSHBYTE` does not use, `arg[15:8]` (R65 (e)). -/
def argHigh (a : BitVec 16) : Byte := a.extractLsb' 8 8

/-- `sext_16`: a 16-bit field as a two's-complement integer (R12, R62). -/
def sext16 (a : BitVec 16) : Int := a.toInt

/-- The command if the field that must be zero is zero, otherwise illegal (R65). -/
def requireZero {n : Nat} (field : BitVec n) (why : Illegal) (next : Decoded) : Decoded :=
  if field = 0 then next else .illegal why

/-- The command if `f` is 0, otherwise illegal (R65 (c)). -/
def requireNoBoolean (f : Bool) (next : Decoded) : Decoded :=
  if f then .illegal .booleanSet else next

/-- The command an opcode names, its operands taken from `f` and `arg` (R62, R63, R65 (a), (c), (d), (e)). -/
def decodeFields (op : BitVec 4) (f : Bool) (arg : BitVec 16) : Decoded :=
  match op.toNat with
  | 0x1 => requireZero arg .argumentSet (.command (.pushBit f))
  | 0x2 => requireNoBoolean f (requireZero (argHigh arg) .argumentSet (.command (.pushByte (argByte arg))))
  | 0x3 => requireNoBoolean f (requireZero arg .argumentSet (.command .readBit))
  | 0x4 => requireZero arg .argumentSet (.command (.readByte f))
  | 0x5 => requireNoBoolean f (requireZero arg .argumentSet (.command .clear))
  | 0x6 => requireNoBoolean f (requireZero arg .argumentSet (.command .showOut))
  | 0x7 => requireZero arg .argumentSet (.command (.setOe f))
  | 0x8 => requireNoBoolean f (requireZero arg .argumentSet (.command .sClear))
  | 0x9 => .command (.sWrite (sext16 arg) f)
  | _ => .illegal .reservedOpcode

/-- The decoder, total on words (R61 to R65). -/
def decode (w : Word) : Decoded :=
  requireZero (rsvField w) .reservedBits (decodeFields (opField w) (fField w) (argField w))

/-- The instruction of a decoder's answer, if there is one. -/
def Decoded.instr? : Decoded → Option Instr
  | .command i => some i
  | .illegal _ => none

/-- The decoder on a word of the opcode table: every row has 32 bits and the one word is the instruction (R61). -/
def decodeTableWord (nbits w : Nat) : Option Instr :=
  (decode (BitVec.ofNat 32 (w % 2 ^ nbits))).instr?

/-! The encoder, from the same fields. -/

/-- The word of an opcode, a Boolean and an argument; `rsv` is 0 (R61). -/
def packFields (op : BitVec 4) (f : Bool) (arg : BitVec 16) : Word :=
  op ++ (0 : BitVec 11) ++ BitVec.ofBool f ++ arg

/-- The 16-bit two's-complement field of an integer (R61, R62). -/
def pinArg (pin : Int) : BitVec 16 := BitVec.ofInt 16 pin

/-- The byte in `arg[7:0]`, `arg[15:8]` zero (R61). -/
def byteArg (b : Byte) : BitVec 16 := b.setWidth 16

/-- The command word of a well-formed command (R61 to R63). -/
def encode : Instr → Word
  | .pushBit b => packFields 0x1 b 0
  | .pushByte v => packFields 0x2 false (byteArg v)
  | .readBit => packFields 0x3 false 0
  | .readByte pb => packFields 0x4 pb 0
  | .clear => packFields 0x5 false 0
  | .showOut => packFields 0x6 false 0
  | .setOe b => packFields 0x7 b 0
  | .sClear => packFields 0x8 false 0
  | .sWrite pin b => packFields 0x9 b (pinArg pin)

/-! The opcode map as the spec prints it (R63), for claims that hold the decoder against it. -/

/-- One row: mnemonic, layer, `match` and `mask`. -/
structure OpcodeRow where
  mnemonic : String
  layer : LayerName
  pattern : Word
  mask : Word
deriving DecidableEq, Repr

/-- A word matches a row when `(w & mask) == match` (R63). -/
def OpcodeRow.hits (r : OpcodeRow) (w : Word) : Bool := w &&& r.mask == r.pattern

/-- The nine rows of R63. -/
def opcodeRows : List OpcodeRow :=
  [ ⟨"PUSHBIT", .protocol, 0x10000000, 0xFFFEFFFF⟩,
    ⟨"PUSHBYTE", .protocol, 0x20000000, 0xFFFFFF00⟩,
    ⟨"READBIT", .protocol, 0x30000000, 0xFFFFFFFF⟩,
    ⟨"READBYTE", .protocol, 0x40000000, 0xFFFEFFFF⟩,
    ⟨"CLEAR", .protocol, 0x50000000, 0xFFFFFFFF⟩,
    ⟨"SHOW", .protocol, 0x60000000, 0xFFFFFFFF⟩,
    ⟨"SETOE", .protocol, 0x70000000, 0xFFFEFFFF⟩,
    ⟨"SCLEAR", .stateful, 0x80000000, 0xFFFFFFFF⟩,
    ⟨"SWRITE", .stateful, 0x90000000, 0xFFFE0000⟩ ]

/-- The mnemonic of a command (R63). -/
def Instr.mnemonic : Instr → String
  | .pushBit _ => "PUSHBIT"
  | .pushByte _ => "PUSHBYTE"
  | .readBit => "READBIT"
  | .readByte _ => "READBYTE"
  | .clear => "CLEAR"
  | .showOut => "SHOW"
  | .setOe _ => "SETOE"
  | .sClear => "SCLEAR"
  | .sWrite _ _ => "SWRITE"

end Sys2Proof
end

