-- ==== Sys2Proof/Machine/State.lean ====
section
/-! DEFINITION. The state of the controller (10_state.md rule R20), of the chain it drives (20_memory.md rule R48), of the
host port (30_encoding.md rule R60) and of what an observer has seen (00_scope.md rule R14); the reasons a step stops; the
state after reset (10_state.md rule R33). -/

namespace Sys2Proof.Machine

/-- The six line roles (R1, R7). -/
inductive Line where
  | data
  | clock
  | latch
  | clear
  | dataOut
  | outputEnable
deriving DecidableEq, Repr

/-- The five lines the controller drives; `dataOut` is the one it samples (R20, R23). -/
inductive Driven where
  | data
  | clock
  | latch
  | clear
  | outputEnable
deriving DecidableEq, Repr

/-- The direction argument of a `Cfg` event (R11). -/
inductive Direction where
  | input
  | output
deriving DecidableEq, Repr

/-- The contents of a direction register: UNCONF, IN or OUT (R20, R22). -/
inductive Dir where
  | unconf
  | input
  | output
deriving DecidableEq, Repr

/-- The direction registers `dir[l]` (R22). -/
structure Dirs where
  data : Dir
  clock : Dir
  latch : Dir
  clear : Dir
  dataOut : Dir
  outputEnable : Dir
deriving DecidableEq, Repr

/-- The level registers `lvl[l]`; `true` is 1 is high (R10, R23). -/
structure Levels where
  data : Bool
  clock : Bool
  latch : Bool
  clear : Bool
  outputEnable : Bool
deriving DecidableEq, Repr

/-- One call of a pin primitive (R11). `get v` is `Get(dataOut) = v`: `dataOut` is the only line ever sampled (R23). -/
inductive Event where
  | cfg (l : Line) (d : Direction)
  | set (l : Driven) (v : Bool)
  | get (v : Bool)
  | delay (us : Nat)
deriving DecidableEq, Repr

/-- The reference chain (R48): `sr` is `sr[1..W]` and `st` is `st[1..W]`, stage 1 first. The width W is their length. -/
structure Chain where
  sr : List Bool
  st : List Bool
deriving DecidableEq, Repr

/-- What the host does at a command boundary: present a command word (R60), or assert reset (R145). -/
inductive HostInput where
  | command (w : Word)
  | reset
deriving DecidableEq, Repr

/-- The machine. -/
structure State where
  /-- The build parameters (R7, R31), which no step writes: a statement about every state is one about every build
  (log entry 1). -/
  build : Build
  /-- `shadow[0..N-1]`, index 0 first (R21); empty in a `PROTOCOL` build, which has none. -/
  shadow : List Byte
  /-- `dir[l]` (R22). -/
  dir : Dirs
  /-- `lvl[l]` (R23). -/
  lvl : Levels
  /-- The chain attached, or `none` where nothing is assumed of the environment (R27, R48; log entry 2). -/
  chain : Option Chain
  /-- What the host will present next, first to last (R60, R132). -/
  host : List HostInput
  /-- The events issued since reset was released, first to last (R11, R14). -/
  trace : List Event
  /-- The response bytes since reset was released, first to last (R69). -/
  responses : List Byte
  /-- The model's own count of `Get` events, the argument of `Config.dataOutLevel` (log entry 5). -/
  gets : Nat
deriving DecidableEq, Repr

/-- The controller has no exceptions, no cause codes and no trap (R120): there is no fault to name. -/
inductive Fault where
deriving DecidableEq, Repr

/-- Why the model gives a step no meaning. All are safe: nothing can be concluded about a run that meets one. -/
inductive Refusal where
  /-- Raised by `exec` for a command not modelled yet; no arm does. Safe. -/
  | notModelled (mnemonic : String)
  /-- Raised by the port for a word that is no command (R65 (a) to (e), R67: "a model refuses the word"). Safe. -/
  | illegalWord (why : Illegal)
  /-- Raised by a command given to a build of the other layer (R65 (f), R66, R67). Safe. -/
  | otherLayer
  /-- Raised by any step of a `STATEFUL` build whose N is outside 1..4095 (R7; U15: refuse the configuration). Safe. -/
  | illegalBuild
deriving DecidableEq, Repr

/-- The machine once the reset sequence has finished (R33), "the first moment a command can be given": a `STATEFUL` build with
N = 2, all optional lines and a chain of W = 16 stages (log entry 7), its trace the 78 reset events that 95_test_vectors.md
lists for this build (R140, R141). `releaseReset` gives the same for every build and every power-on chain. -/
def State.reset : State where
  build := { layer := .stateful 2, hasClear := true, hasDout := true, hasOe := true }
  shadow := [0, 0]
  dir := { data := .output, clock := .output, latch := .output, clear := .output, dataOut := .input,
           outputEnable := .output }
  lvl := { data := false, clock := false, latch := false, clear := true, outputEnable := false }
  chain := some { sr := List.replicate 16 false, st := List.replicate 16 false }
  host := []
  trace :=
    [.cfg .data .output, .cfg .clock .output, .cfg .latch .output, .cfg .clear .output, .cfg .dataOut .input,
     .cfg .outputEnable .output, .set .clear true, .set .outputEnable false] ++
    [.set .clear false, .delay 5, .set .clear true] ++
    (List.replicate 16 [.set .data false, .set .clock true, .delay 5, .set .clock false]).flatten ++
    [.set .latch true, .delay 5, .set .latch false]
  responses := []
  gets := 0

end Sys2Proof.Machine
end

