-- ==== Sys2Proof/Machine/Ops.lean ====
section
/-! DEFINITION. The named operations every command is written over: which lines are present, reading and writing the line
registers, the reference chain, and issuing one event of 00_scope.md rule R11. There is no exception to take or to return
from (60_exceptions.md rules R120, R126, R127) and no memory to access (20_memory.md rule R41). -/

namespace Sys2Proof.Machine

/-! The build. -/

/-- `Present(l)` (R9). -/
def present (b : Build) : Line → Bool
  | .data => true
  | .clock => true
  | .latch => true
  | .clear => b.hasClear
  | .dataOut => b.hasDout
  | .outputEnable => b.hasOe

/-- `N` is in 1..4095 where it exists (R7). -/
def buildLegal (b : Build) : Bool :=
  match b.layer with
  | .protocol => true
  | .stateful n => decide (1 ≤ n) && decide (n ≤ Config.maxBytes)

/-- The layer of the build, without `N` (R7). -/
def layerName : Layer → LayerName
  | .protocol => .protocol
  | .stateful _ => .stateful

/-! The line registers. -/

/-- The line a level register drives (R23). -/
def drivenLine : Driven → Line
  | .data => .data
  | .clock => .clock
  | .latch => .latch
  | .clear => .clear
  | .outputEnable => .outputEnable

/-- What `Cfg(l, d)` stores (R22). -/
def dirOfDirection : Direction → Dir
  | .input => .input
  | .output => .output

/-- `dir[l]` (R22). -/
def dirOf (d : Dirs) : Line → Dir
  | .data => d.data
  | .clock => d.clock
  | .latch => d.latch
  | .clear => d.clear
  | .dataOut => d.dataOut
  | .outputEnable => d.outputEnable

/-- `dir[l] <- v` (R22). -/
def setDir (d : Dirs) (l : Line) (v : Dir) : Dirs :=
  match l with
  | .data => { d with data := v }
  | .clock => { d with clock := v }
  | .latch => { d with latch := v }
  | .clear => { d with clear := v }
  | .dataOut => { d with dataOut := v }
  | .outputEnable => { d with outputEnable := v }

/-- `lvl[l]` (R23). -/
def levelOf (v : Levels) : Driven → Bool
  | .data => v.data
  | .clock => v.clock
  | .latch => v.latch
  | .clear => v.clear
  | .outputEnable => v.outputEnable

/-- `lvl[l] <- b` (R23). -/
def setLevel (v : Levels) (l : Driven) (b : Bool) : Levels :=
  match l with
  | .data => { v with data := b }
  | .clock => { v with clock := b }
  | .latch => { v with latch := b }
  | .clear => { v with clear := b }
  | .outputEnable => { v with outputEnable := b }

/-- Every direction UNCONF (R32). -/
def dirsUnconfigured : Dirs :=
  { data := .unconf, clock := .unconf, latch := .unconf, clear := .unconf, dataOut := .unconf, outputEnable := .unconf }

/-- Every level 0 (R32). -/
def levelsLow : Levels :=
  { data := false, clock := false, latch := false, clear := false, outputEnable := false }

/-- The electrical value on the pin of a driven line: its level when the line is an output, otherwise nothing, high
impedance (R24). -/
def pad (d : Dirs) (v : Levels) (l : Driven) : Option Bool :=
  match dirOf d (drivenLine l) with
  | .output => some (levelOf v l)
  | .input => none
  | .unconf => none

/-- The directions after an event: `Cfg(l, d)` sets `dir[l]` and no other event changes one (R11, R22). -/
def dirsAfter (d : Dirs) : Event → Dirs
  | .cfg l v => setDir d l (dirOfDirection v)
  | .set _ _ => d
  | .get _ => d
  | .delay _ => d

/-- The levels after an event: `Set(l, v)` sets `lvl[l]` and no other event changes one (R11, R23). -/
def levelsAfter (v : Levels) : Event → Levels
  | .cfg _ _ => v
  | .set l b => setLevel v l b
  | .get _ => v
  | .delay _ => v

/-! The reference chain (R48 to R53). -/

/-- A shift by one stage: `sr[1] <- d`, `sr[k] <- sr[k-1]`, the old `sr[W]` lost (R49). -/
def shiftIn (d : Bool) (c : Chain) : Chain :=
  { c with sr := (d :: c.sr).take c.sr.length }

/-- The transfer to the storage register: `st[k] <- sr[k]` for all k (R50). -/
def latchStages (c : Chain) : Chain :=
  { c with st := c.sr }

/-- The clear of all shift stages; the storage register keeps its value (R51). -/
def clearStages (c : Chain) : Chain :=
  { c with sr := List.replicate c.sr.length false }

/-- The `clear` line is driven low; where it is absent the chain's clear input is tied inactive (R51; log entry 3). -/
def clearLow (b : Build) (d : Dirs) (v : Levels) : Bool :=
  b.hasClear && (pad d v .clear == some false)

/-- What the chain does at an event that finds the lines as given: a shift on a rising edge of the clock while clear is
inactive (R49), a transfer on a rising edge of the latch (R50), nothing otherwise. -/
def chainEdge (b : Build) (d : Dirs) (v : Levels) (e : Event) (c : Chain) : Chain :=
  match e with
  | .set .clock true => if v.clock || clearLow b d v then c else shiftIn v.data c
  | .set .latch true => if v.latch then c else latchStages c
  | _ => c

/-- While the `clear` line is driven low every shift stage is 0 (R51). -/
def chainHeld (b : Build) (d : Dirs) (v : Levels) (c : Chain) : Chain :=
  if clearLow b d v then clearStages c else c

/-- The chain after an event that finds the lines as given (R49 to R51). -/
def chainAfter (b : Build) (d : Dirs) (v : Levels) (e : Event) (c : Chain) : Chain :=
  chainHeld b (dirsAfter d e) (levelsAfter v e) (chainEdge b d v e c)

/-- The level the environment presents on `dataOut`: `sr[W]` of the chain attached (R52); with no chain, or one with no
stage, the free value (R27; log entries 2 and 5). -/
def dataOutNow (s : State) : Bool :=
  (s.chain.bind fun c => c.sr.getLast?).getD (Config.dataOutLevel s.gets)

/-- The outputs are enabled: no `outputEnable` line, or the line is low (R53). -/
def outputsEnabled (s : State) : Bool :=
  !s.build.hasOe || (pad s.dir s.lvl .outputEnable == some false)

/-- The parallel outputs `out[1..W]` of the chain attached, while they are enabled (R53). What disabled outputs present is
left open: `none` (U13; log entry 4). -/
def chainOutputs (s : State) : Option (List Bool) :=
  if outputsEnabled s then s.chain.map Chain.st else none

/-! Events (R11). -/

/-- The count of `Get` events after an event (the model's own, log entry 5). -/
def getsAfter (k : Nat) : Event → Nat
  | .cfg _ _ => k
  | .set _ _ => k
  | .get _ => k + 1
  | .delay _ => k

/-- Issue one event: it is recorded, the line registers take its effect, and the chain reacts (R11). -/
def issue (s : State) (e : Event) : State :=
  { s with
    dir := dirsAfter s.dir e
    lvl := levelsAfter s.lvl e
    chain := s.chain.map (chainAfter s.build s.dir s.lvl e)
    trace := s.trace ++ [e]
    gets := getsAfter s.gets e }

/-- Issue events in order (R55 (a)). -/
def issueAll (es : List Event) (s : State) : State :=
  es.foldl issue s

/-- `Get(dataOut)`: the level now on the line, and the event (R11, R27). -/
def getDataOut (s : State) : Bool × State :=
  (dataOutNow s, issue s (.get (dataOutNow s)))

/-- Present a response byte (R60, R69). -/
def respond (v : Byte) (s : State) : State :=
  { s with responses := s.responses ++ [v] }

/-- `shadow[i]` (R21). An index past the buffer, which no procedure uses in a state whose buffer has N bytes, reads 0
(log entry 10). -/
def shadowByte (s : State) (i : Nat) : Byte :=
  s.shadow.getD i 0

/-- `shadow[i] <- v` (R21). -/
def setShadowByte (s : State) (i : Nat) (v : Byte) : State :=
  { s with shadow := s.shadow.set i v }

/-- `shadow[i] <- 0x00` for i = 0 .. N-1 (R101, R141). -/
def zeroShadow (n : Nat) (s : State) : State :=
  { s with shadow := List.replicate n 0 }

/-! Which build may run a command (R66). -/

/-- Run a Protocol-layer command: refused in a `STATEFUL` build (R66, R67). -/
def inProtocolBuild (s : State) (run : State → State) : Host.Outcome State Fault Refusal :=
  if buildLegal s.build then
    match s.build.layer with
    | .protocol => .next (run s)
    | .stateful _ => .refused .otherLayer
  else .refused .illegalBuild

/-- Run a State-Based-Register command with the build's N: refused in a `PROTOCOL` build (R66, R67), and in a build whose N
is out of range (U15). -/
def inStatefulBuild (s : State) (run : Nat → State → State) : Host.Outcome State Fault Refusal :=
  if buildLegal s.build then
    match s.build.layer with
    | .protocol => .refused .otherLayer
    | .stateful n => .next (run n s)
  else .refused .illegalBuild

end Sys2Proof.Machine
end

