-- ==== Sys2Proof/Machine/Operands.lean ====
section
/-! DEFINITION. The operand forms and all the arithmetic of the controller: bits of a byte (00_scope.md rule R10), the
response values (30_encoding.md rule R69), and the index arithmetic of `SWRITE` (41_stateful.md rule R103). The controller
computes no flag (10_state.md rule R30). -/

namespace Sys2Proof.Machine

/-- `b[i]` (R10). -/
def bitOf (b : Byte) (i : Nat) : Bool := b.getLsbD i

/-- `1 << k` on 8 bits (R12, R103 (c)). -/
def bitMask (k : Nat) : Byte := 1#8 <<< k

/-- The byte with bit `k` set or cleared: `v | mask`, `v & ~mask` (R103 (d)); also `v[i] <- r` of `READBYTE` (R83, R84). -/
def assignBit (v : Byte) (k : Nat) (bit : Bool) : Byte :=
  if bit then v ||| bitMask k else v &&& ~~~(bitMask k)

/-- `zext_8` of the bit read (R69). -/
def zext8 (r : Bool) : Byte := if r then 1 else 0

/-- The range test `0 <= pin < 8N`, on integers (R103 (a)). -/
def pinInRange (n : Nat) (pin : Int) : Bool :=
  decide (0 ≤ pin) && decide (pin < 8 * (n : Int))

/-- `pin / 8` of an index that passed the range test (R103 (b)). -/
def pinByte (pin : Int) : Nat := pin.toNat / 8

/-- `pin % 8` of an index that passed the range test (R103 (b)). -/
def pinBit (pin : Int) : Nat := pin.toNat % 8

/-- Logical output `p`: bit `p % 8` of `shadow[p / 8]` (R21, R40). -/
def logicalOutput (s : State) (p : Nat) : Bool :=
  bitOf (shadowByte s (p / 8)) (p % 8)

end Sys2Proof.Machine
end

