-- ==== Sys2Proof/Machine/Protocol.lean ====
section
/-! DEFINITION. The bodies of the Protocol-layer commands (40_protocol.md), as procedures: a `PROTOCOL` build runs them as
commands, and both layers `call` them from larger bodies (rule R3, 41_stateful.md, 70_reset_and_hazards.md). -/

namespace Sys2Proof.Machine

/-- The body of `PUSHBIT s` (R80): data before clock, one clock pulse with the settle delay inside. -/
def pushBit (bit : Bool) (s : State) : State :=
  issueAll [.set .data bit, .set .clock true, .delay Config.settleUs, .set .clock false] s

/-- `for i = k-1 downto 0: call PUSHBIT(b[i])` (R81). -/
def pushBitsBelow (b : Byte) : Nat → State → State
  | 0, s => s
  | k + 1, s => pushBitsBelow b k (pushBit (bitOf b k) s)

/-- The body of `PUSHBYTE b` (R81, R42): bit 7 first, bit 0 last. -/
def pushByte (b : Byte) (s : State) : State :=
  pushBitsBelow b 8 s

/-- The body of `READBIT` (R82): the level of `dataOut`, or the sentinel 0 with no event. -/
def readBit (s : State) : Bool × State :=
  if s.build.hasDout then getDataOut s else (false, s)

/-- `for i = k-1 downto 0` of `READBYTE` (R83): read, store the bit at `i`, push it back or push 0. -/
def readBitsBelow (pushBack : Bool) : Nat → Byte → State → Byte × State
  | 0, v, s => (v, s)
  | k + 1, v, s =>
    let (r, s) := readBit s
    readBitsBelow pushBack k (assignBit v k r) (pushBit (pushBack && r) s)

/-- The body of `READBYTE pb` (R83, R84): the byte assembled, and the state after. -/
def readByte (pushBack : Bool) (s : State) : Byte × State :=
  readBitsBelow pushBack 8 0 s

/-- The body of `CLEAR` (R85): a low pulse on `clear` where the line is present. -/
def clearPulse (s : State) : State :=
  if s.build.hasClear then issueAll [.set .clear false, .delay Config.settleUs, .set .clear true] s else s

/-- The body of `SHOW` (R86): a high pulse on `latch`. -/
def showPulse (s : State) : State :=
  issueAll [.set .latch true, .delay Config.settleUs, .set .latch false] s

/-- The body of `SETOE s` (R87): active low, so the level is the negation of `s`. -/
def setOutputEnabled (enabled : Bool) (s : State) : State :=
  if s.build.hasOe then issue s (.set .outputEnable (!enabled)) else s

end Sys2Proof.Machine
end

