-- ==== Sys2Proof/Machine/Control.lean ====
section
/-! DEFINITION. The clear, show and output-enable commands, `CLEAR`, `SHOW` and `SETOE` (40_protocol.md section 4). -/

namespace Sys2Proof.Machine

/-- `CLEAR` (R85): with no `clear` line it does nothing at this layer (90_conflicts.md C3). -/
def execClear (s : State) : Host.Outcome State Fault Refusal :=
  inProtocolBuild s clearPulse

/-- `SHOW` (R86). -/
def execShowOut (s : State) : Host.Outcome State Fault Refusal :=
  inProtocolBuild s showPulse

/-- `SETOE s` (R87): with no `outputEnable` line it does nothing. -/
def execSetOe (enabled : Bool) (s : State) : Host.Outcome State Fault Refusal :=
  inProtocolBuild s (setOutputEnabled enabled)

end Sys2Proof.Machine
end

