-- ==== Sys2Proof/Machine/Push.lean ====
section
/-! DEFINITION. The pushing commands, `PUSHBIT` and `PUSHBYTE` (40_protocol.md section 2). -/

namespace Sys2Proof.Machine

/-- `PUSHBIT s` (R80). -/
def execPushBit (bit : Bool) (s : State) : Host.Outcome State Fault Refusal :=
  inProtocolBuild s (pushBit bit)

/-- `PUSHBYTE b` (R81). -/
def execPushByte (byte : Byte) (s : State) : Host.Outcome State Fault Refusal :=
  inProtocolBuild s (pushByte byte)

end Sys2Proof.Machine
end

