-- ==== Sys2Proof/Machine/Read.lean ====
section
/-! DEFINITION. The reading commands, `READBIT` and `READBYTE` (40_protocol.md section 3). -/

namespace Sys2Proof.Machine

/-- `READBIT` (R82): the response is `zext_8` of the bit read (R69). -/
def execReadBit (s : State) : Host.Outcome State Fault Refusal :=
  inProtocolBuild s fun s => respond (zext8 (readBit s).1) (readBit s).2

/-- `READBYTE pb` (R83): the response is the byte assembled (R69). -/
def execReadByte (pushBack : Bool) (s : State) : Host.Outcome State Fault Refusal :=
  inProtocolBuild s fun s => respond (readByte pushBack s).1 (readByte pushBack s).2

end Sys2Proof.Machine
end

