-- ==== Sys2Proof/Machine/Register.lean ====
section
/-! DEFINITION. The bodies of the State-Based Register's procedures: `FLUSH`, `SCLEAR`, `SWRITE` (41_stateful.md). Every event
arises from a `call` of a Protocol-layer body (rule R3, 90_conflicts.md C6). `n` is the build's N. -/

namespace Sys2Proof.Machine

/-- `for i = k-1 downto 0: call PUSHBYTE(shadow[i])` (R100, R43). -/
def pushShadowBelow : Nat → State → State
  | 0, s => s
  | k + 1, s => pushShadowBelow k (pushByte (shadowByte s k) s)

/-- `FLUSH` (R100): every shadow byte, highest index first, then the latch pulse. -/
def flush (n : Nat) (s : State) : State :=
  showPulse (pushShadowBelow n s)

/-- `repeat k times: call PUSHBYTE(0x00)` (R101). -/
def pushZeroBytes : Nat → State → State
  | 0, s => s
  | k + 1, s => pushZeroBytes k (pushByte 0 s)

/-- The chain clear that opens `SCLEAR`: the hardware clear, or the flood (R101, 90_conflicts.md C3). -/
def clearChain (n : Nat) (s : State) : State :=
  if s.build.hasClear then clearPulse s else pushZeroBytes n s

/-- The body of `SCLEAR` (R101): clear the chain, zero the shadow buffer, flush. -/
def clearRegister (n : Nat) (s : State) : State :=
  flush n (zeroShadow n (clearChain n s))

/-- `SWRITE`'s change of the shadow buffer for a valid index (R104): one bit of one byte. -/
def writeShadowBit (pin : Int) (bit : Bool) (s : State) : State :=
  setShadowByte s (pinByte pin) (assignBit (shadowByte s (pinByte pin)) (pinBit pin) bit)

/-- The body of `SWRITE pin, s` (R104): write the bit and flush, also when the bit already had the value (90_conflicts.md
C4); out of range, nothing at all (R105). -/
def writePin (n : Nat) (pin : Int) (bit : Bool) (s : State) : State :=
  if pinInRange n pin then flush n (writeShadowBit pin bit s) else s

end Sys2Proof.Machine
end

