-- ==== Sys2Proof/Machine/Stateful.lean ====
section
/-! DEFINITION. The State-Based Register's commands, `SCLEAR` and `SWRITE` (41_stateful.md sections 2 and 3). -/

namespace Sys2Proof.Machine

/-- `SCLEAR` (R101). -/
def execSClear (s : State) : Host.Outcome State Fault Refusal :=
  inStatefulBuild s clearRegister

/-- `SWRITE pin, s` (R104, R105). -/
def execSWrite (pin : Int) (bit : Bool) (s : State) : Host.Outcome State Fault Refusal :=
  inStatefulBuild s fun n s => writePin n pin bit s

end Sys2Proof.Machine
end

