-- ==== Sys2Proof/Machine/Dispatch.lean ====
section
/-! DEFINITION. One arm per command of 30_encoding.md rule R63. -/

namespace Sys2Proof.Machine

def exec (i : Instr) (s : State) : Host.Outcome State Fault Refusal :=
  match i with
  | .pushBit bit => Sys2Proof.Machine.execPushBit bit s
  | .pushByte byte => Sys2Proof.Machine.execPushByte byte s
  | .readBit => Sys2Proof.Machine.execReadBit s
  | .readByte pushBack => Sys2Proof.Machine.execReadByte pushBack s
  | .clear => Sys2Proof.Machine.execClear s
  | .showOut => Sys2Proof.Machine.execShowOut s
  | .setOe enabled => Sys2Proof.Machine.execSetOe enabled s
  | .sClear => Sys2Proof.Machine.execSClear s
  | .sWrite pin bit => Sys2Proof.Machine.execSWrite pin bit s

end Sys2Proof.Machine
end

