-- ==== Sys2Proof/Machine/Reset.lean ====
section
/-! DEFINITION. Reset: the values at release (10_state.md rule R32) and the two reset sequences (70_reset_and_hazards.md rules
R140, R141), which no command word can name (30_encoding.md rule R64). -/

namespace Sys2Proof.Machine

/-- The events of a `Cfg` or `Set` on an optional line, where the line is present. -/
def whenPresent (has : Bool) (e : Event) : List Event := if has then [e] else []

/-- `P_RESET` (R140): the present lines are configured, then `clear` goes inactive and the outputs are enabled. -/
def protocolReset (s : State) : State :=
  issueAll
    ([.cfg .data .output, .cfg .clock .output, .cfg .latch .output] ++
     whenPresent s.build.hasClear (.cfg .clear .output) ++
     whenPresent s.build.hasDout (.cfg .dataOut .input) ++
     whenPresent s.build.hasOe (.cfg .outputEnable .output) ++
     whenPresent s.build.hasClear (.set .clear true) ++
     whenPresent s.build.hasOe (.set .outputEnable false)) s

/-- `S_RESET` (R141): zero the shadow buffer, then one execution of the body of `SCLEAR`. -/
def registerReset (n : Nat) (s : State) : State :=
  clearRegister n (zeroShadow n s)

/-- The reset input asserted: the controller's registers take the values of R32, the observer's record starts again, and the
chain is not touched (R145). The shadow buffer is unspecified at this point (R32, U2): what it held is kept, and no
procedure reads it before zeroing it (log entry 9). -/
def assertReset (s : State) : State :=
  { s with dir := dirsUnconfigured, lvl := levelsLow, trace := [], responses := [] }

/-- Reset released: `P_RESET`, and in a `STATEFUL` build then `S_RESET` (R140, R141). -/
def releaseReset (s : State) : State :=
  match s.build.layer with
  | .protocol => protocolReset (assertReset s)
  | .stateful n => registerReset n (protocolReset (assertReset s))

/-- A build at power-up, before its reset sequence has run, attached to a chain whose contents are any value (R32, U1), or to
an environment about which nothing is assumed. -/
def State.powerOn (b : Build) (c : Option Chain) : State where
  build := b
  shadow := []
  dir := dirsUnconfigured
  lvl := levelsLow
  chain := c
  host := []
  trace := []
  responses := []
  gets := 0

end Sys2Proof.Machine
end

