-- ==== Sys2Proof/Machine/Port.lean ====
section
/-! DEFINITION. The host port at transaction level (30_encoding.md rule R60): what the host presents next, taking it, and
placing a word there. -/

namespace Sys2Proof.Machine

/-- What stands at the port at a command boundary. -/
inductive Presented where
  /-- Nothing: the host may leave any gap (R132). -/
  | nothing
  /-- The reset input (R145). -/
  | reset
  /-- A legal command word, decoded (R63). -/
  | command (i : Instr)
  /-- A word that is no command (R65). -/
  | illegal (why : Illegal)
deriving DecidableEq, Repr

/-- What the host presents next. -/
def presented (s : State) : Presented :=
  match s.host with
  | [] => .nothing
  | .reset :: _ => .reset
  | .command w :: _ =>
    match decode w with
    | .command i => .command i
    | .illegal why => .illegal why

/-- The port after what stands there has been taken: each word is used once (R58). -/
def takeInput (s : State) : State :=
  { s with host := s.host.tail }

/-- The machine with a word presented before everything else the host will present. -/
def presentWord (w : Word) (s : State) : State :=
  { s with host := .command w :: s.host }

/-- The machine as a build whose layer is the one given. A build that changes layer gets that layer's shadow buffer: none, or
zeros (R33); N is then that of `State.reset` (log entries 7 and 8). -/
def asLayer (l : LayerName) (s : State) : State :=
  match l, s.build.layer with
  | .protocol, .protocol => s
  | .stateful, .stateful _ => s
  | .protocol, .stateful _ => { s with build := { s.build with layer := .protocol }, shadow := [] }
  | .stateful, .protocol => { s with build := { s.build with layer := .stateful 2 }, shadow := [0, 0] }

/-- The build that accepts an instruction (R66). -/
def asBuildFor (i : Option Instr) (s : State) : State :=
  match i with
  | some i => asLayer i.layer s
  | none => s

end Sys2Proof.Machine
end

