-- ==== Sys2Proof/Machine/Step.lean ====
section
/-! DEFINITION. One step at the host port: a whole command (00_scope.md rule R14, 10_state.md rule R29, decision D8), a whole
reset (70_reset_and_hazards.md rule R145), or nothing where the host presents nothing. -/

namespace Sys2Proof.Machine

/-- One step: what the host presents is taken and acted on to completion. A reset during a command has no step (R146). -/
def step (s : State) : Host.Outcome State Fault Refusal :=
  if buildLegal s.build then
    match presented s with
    | .nothing => .next s
    | .reset => .next (releaseReset (takeInput s))
    | .command i => exec i (takeInput s)
    | .illegal why => .refused (.illegalWord why)
  else .refused .illegalBuild

/-- The machine with the word `w` of an opcode-table row presented next, in a build that accepts it (R66; log entry 8). -/
def State.withFetchWord (s : State) (nbits w : Nat) : State :=
  presentWord (BitVec.ofNat 32 (w % 2 ^ nbits)) (asBuildFor (decodeTableWord nbits w) s)

end Sys2Proof.Machine
end

