-- ==== Sys2Proof/Safety.lean ====
section
/-! DEFINITION. The terms claims are stated in: the traces of the spec's rules written out, what pushing does to the reference
chain, and the invariants of the command boundary. -/

namespace Sys2Proof.Machine

/-! The traces of the rules (95_test_vectors.md's `PB`, `PBYTE`, `SH`, `CL`). -/

/-- The four events of R80. -/
def pushBitTrace (b : Bool) : List Event :=
  [.set .data b, .set .clock true, .delay 5, .set .clock false]

/-- The bits of a byte in wire order, bit 7 first (R42). -/
def bitsMsbFirst (v : Byte) : List Bool :=
  [bitOf v 7, bitOf v 6, bitOf v 5, bitOf v 4, bitOf v 3, bitOf v 2, bitOf v 1, bitOf v 0]

/-- The bits of a byte by logical output index, bit 0 first (R40): also the order of the stages they end in (R44). -/
def bitsLsbFirst (v : Byte) : List Bool :=
  [bitOf v 0, bitOf v 1, bitOf v 2, bitOf v 3, bitOf v 4, bitOf v 5, bitOf v 6, bitOf v 7]

/-- The 32 events of R81. -/
def pushByteTrace (v : Byte) : List Event :=
  (bitsMsbFirst v).flatMap pushBitTrace

/-- The three events of R86. -/
def showTrace : List Event :=
  [.set .latch true, .delay 5, .set .latch false]

/-- The three events of R85. -/
def clearTrace : List Event :=
  [.set .clear false, .delay 5, .set .clear true]

/-- The events of `FLUSH` on a shadow buffer: highest index first, then the latch pulse (R100). -/
def flushTrace (shadow : List Byte) : List Event :=
  shadow.reverse.flatMap pushByteTrace ++ showTrace

/-- The events of the body of `SCLEAR` (R101). -/
def clearRegisterTrace (hasClear : Bool) (n : Nat) : List Event :=
  (if hasClear then clearTrace else (List.replicate n (pushByteTrace 0)).flatten) ++ flushTrace (List.replicate n 0)

/-- The events of one iteration of `READBYTE` that reads `r` (R83). -/
def readIterationTrace (hasDout pushBack r : Bool) : List Event :=
  (if hasDout then [.get r] else []) ++ pushBitTrace (pushBack && r)

/-- `sum over j of r_j * 2^(7-j)`, the response of R84. -/
def readValue (rs : List Bool) : Nat :=
  ((List.range 8).map fun j => (rs.getD j false).toNat * 2 ^ (7 - j)).sum

/-! The chain. -/

/-- The chain after bits have been pushed; the list has the bit pushed last first, as the stages do (R44, R49). -/
def pushStages (bits : List Bool) (c : Chain) : Chain :=
  { c with sr := (bits ++ c.sr).take c.sr.length }

/-- `shadow` reinterpreted as N*8 ordered bits: entry p is bit `p % 8` of `shadow[p / 8]` (R54). -/
def orderedBits (shadow : List Byte) : List Bool :=
  shadow.flatMap bitsLsbFirst

/-- The byte in stages `8i+1 .. 8i+8`, its bit 0 in the first of them (R81, R91). -/
def stageByte (sr : List Bool) (i : Nat) : Byte :=
  BitVec.ofNat 8 (((List.range 8).map fun k => (sr.getD (8 * i + k) false).toNat * 2 ^ k).sum)

/-! Runs of commands. -/

/-- Commands one after the other, each to completion (R55 (b), R70). -/
def execAll : List Instr → State → Host.Outcome State Fault Refusal
  | [], s => .next s
  | i :: is, s =>
    match exec i s with
    | .next s => execAll is s
    | .fault r => .fault r
    | .refused r => .refused r

/-- A `PROTOCOL` build (R7). -/
abbrev ProtocolBuild (s : State) : Prop := s.build.layer = .protocol

/-- A `STATEFUL` build with `N = n` in the legal range (R7). -/
abbrev StatefulBuild (n : Nat) (s : State) : Prop :=
  s.build.layer = .stateful n ∧ 1 ≤ n ∧ n ≤ Config.maxBytes

/-! The invariants of the command boundary. -/

/-- The directions once the reset sequence has finished (R22, R33). -/
def resetDirs (b : Build) : Dirs where
  data := .output
  clock := .output
  latch := .output
  clear := if b.hasClear then .output else .unconf
  dataOut := if b.hasDout then .input else .unconf
  outputEnable := if b.hasOe then .output else .unconf

/-- The levels once the reset sequence has finished (R33); an absent line's level is never written (R20, R32). -/
def resetLevels (b : Build) : Levels where
  data := false
  clock := false
  latch := false
  clear := b.hasClear
  outputEnable := false

/-- Every line has the direction the reset sequence gave it (R22: "No command changes `dir` after reset"). -/
abbrev DirsConfigured (s : State) : Prop := s.dir = resetDirs s.build

/-- The quiescent levels (R25): clock and latch low, clear inactive, and in a `STATEFUL` build the outputs enabled. -/
abbrev Quiescent (s : State) : Prop :=
  s.lvl.clock = false ∧ s.lvl.latch = false ∧ (s.build.hasClear = true → s.lvl.clear = true) ∧
  (layerName s.build.layer = .stateful → s.build.hasOe = true → s.lvl.outputEnable = false)

/-- `N` of the build; 0 stands in where there is none (R7). -/
def buildBytes (b : Build) : Nat :=
  match b.layer with
  | .protocol => 0
  | .stateful n => n

/-- The shadow buffer has N bytes, and a `PROTOCOL` build has none (R7, R21). -/
abbrev ShadowSized (s : State) : Prop := s.shadow.length = buildBytes s.build

/-- Both registers of the chain have its W stages, W >= 1 (R48). -/
def ChainSized (s : State) : Prop :=
  ∀ c, s.chain = some c → c.st.length = c.sr.length ∧ 1 ≤ c.sr.length

/-- The synchronisation invariant (R54, R106): in a `STATEFUL` build, `st[p+1] = sr[p+1] = shadow[p/8][p%8]` for every
p < 8N that has a stage. -/
def Synced (s : State) : Prop :=
  match s.build.layer with
  | .protocol => True
  | .stateful n =>
    ∀ c, s.chain = some c → ∀ p, p < 8 * n → p < c.sr.length →
      c.sr[p]? = some (logicalOutput s p) ∧ c.st[p]? = some (logicalOutput s p)

/-- What holds of the controller at every command boundary after reset. -/
structure Boundary (s : State) : Prop where
  dirs : DirsConfigured s
  levels : Quiescent s
  shadow : ShadowSized s
  chain : ChainSized s

/-! Properties of the trace. -/

/-- The line an event names, if it names one (R11); `Get` names `dataOut`. -/
def eventLine : Event → Option Line
  | .cfg l _ => some l
  | .set l _ => some (drivenLine l)
  | .get _ => some .dataOut
  | .delay _ => none

/-- No event names an absent line (R9). -/
def OnlyPresentLines (s : State) : Prop :=
  ∀ e ∈ s.trace, ∀ l, eventLine e = some l → present s.build l = true

/-- `dir` and `lvl` are what the events since reset have made them, and nothing else has (R22, R23, R32). -/
def LinesFollowTrace (s : State) : Prop :=
  s.dir = s.trace.foldl dirsAfter dirsUnconfigured ∧ s.lvl = s.trace.foldl levelsAfter levelsLow

/-- The trace is built of whole pulses: every clock pulse is high for one settle delay with its data bit set immediately
before it (R150), every clear pulse is low and every latch pulse high for one settle delay, and there is no other delay and no
other change of clock, latch or data (R151). -/
inductive WellTimed : List Event → Prop
  | nil : WellTimed []
  | push (b : Bool) (rest : List Event) : WellTimed rest → WellTimed (pushBitTrace b ++ rest)
  | clearPulse (rest : List Event) : WellTimed rest → WellTimed (clearTrace ++ rest)
  | latchPulse (rest : List Event) : WellTimed rest → WellTimed (showTrace ++ rest)
  | configure (l : Line) (d : Direction) (rest : List Event) : WellTimed rest → WellTimed (.cfg l d :: rest)
  | sample (v : Bool) (rest : List Event) : WellTimed rest → WellTimed (.get v :: rest)
  | clearInactive (rest : List Event) : WellTimed rest → WellTimed (.set .clear true :: rest)
  | enable (v : Bool) (rest : List Event) : WellTimed rest → WellTimed (.set .outputEnable v :: rest)

/-- The least duration of an event in microseconds (R152, R161). -/
def Event.leastMicros : Event → Nat
  | .delay n => n
  | _ => 0

/-- An event is a sample of `dataOut`. -/
def Event.isGet : Event → Bool
  | .get _ => true
  | _ => false

/-- The events of a command, by R161's table. -/
def eventCount (b : Build) (n : Nat) : Instr → Nat
  | .pushBit _ => 4
  | .pushByte _ => 32
  | .readBit => if b.hasDout then 1 else 0
  | .readByte _ => if b.hasDout then 40 else 32
  | .clear => if b.hasClear then 3 else 0
  | .showOut => 3
  | .setOe _ => if b.hasOe then 1 else 0
  | .sClear => if b.hasClear then 32 * n + 6 else 64 * n + 3
  | .sWrite pin _ => if pinInRange n pin then 32 * n + 3 else 0

/-- The least duration of a command in microseconds, by R161's table. -/
def leastDuration (b : Build) (n : Nat) : Instr → Nat
  | .pushBit _ => 5
  | .pushByte _ => 40
  | .readBit => 0
  | .readByte _ => 40
  | .clear => if b.hasClear then 5 else 0
  | .showOut => 5
  | .setOe _ => 0
  | .sClear => if b.hasClear then 40 * n + 10 else 80 * n + 5
  | .sWrite pin _ => if pinInRange n pin then 40 * n + 5 else 0

end Sys2Proof.Machine
end

