-- ==== Sys2Proof/Certificates/Slice0/Obligations.lean ====
section
/-! DEFINITION. The statements about the controller, from the numbered rules of spec/. OBLIGATIONS.json says of each which
rules it formalises. A statement in terms of `exec` and `step` is about every build (log entry 1), every environment (log
entry 2) and, unless it names an invariant, every state. A clause about what the chain holds is about the reference chain of
R48 to R53, of which the spec itself supplies the edges and the tie-offs from general knowledge (K1 to K4): a docstring says
"reference chain, log entries 3 and 6" where a statement has such a clause. -/

open Sys2Proof Sys2Proof.Machine

/-! ## Encoding -/

/-- The words that 95_test_vectors.md lists under "Encoding" decode as it says. -/
def Obligations.SpecWordsDecode : Prop :=
  decode 0x10010000 = .command (.pushBit true) ∧
  decode 0x200000A5 = .command (.pushByte 0xA5) ∧
  decode 0x200001A5 = .illegal .argumentSet ∧
  decode 0x20010000 = .illegal .booleanSet ∧
  decode 0x30000000 = .command .readBit ∧
  decode 0x30000001 = .illegal .argumentSet ∧
  decode 0x40010000 = .command (.readByte true) ∧
  decode 0x50000000 = .command .clear ∧
  decode 0x60000000 = .command .showOut ∧
  decode 0x60020000 = .illegal .reservedBits ∧
  decode 0x70000000 = .command (.setOe false) ∧
  decode 0x80000000 = .command .sClear ∧
  decode 0x9001000F = .command (.sWrite 15 true) ∧
  decode 0x9001FFFF = .command (.sWrite (-1) true) ∧
  decode 0x90007FFF = .command (.sWrite 32767 false) ∧
  decode 0x90008000 = .command (.sWrite (-32768) false) ∧
  decode 0x00000000 = .illegal .reservedOpcode ∧
  decode 0xA0000000 = .illegal .reservedOpcode ∧
  decode 0xF0000000 = .illegal .reservedOpcode

/-- Decoding the word of a well-formed command gives the command back, with every operand at every value (R61 to R63). -/
def Obligations.DecodeOfEncode : Prop :=
  ∀ i : Instr, i.wellFormed = true → decode (encode i) = .command i

/-- A word that decodes to a command is that command's one word, and the command is well formed (R61 to R63). -/
def Obligations.EncodeOfDecode : Prop :=
  ∀ (w : Word) (i : Instr), decode w = .command i → i.wellFormed = true ∧ encode i = w

/-- The decoder against the printed opcode map (R63): a word is a row's command exactly when `(w & mask) == match`, at most
one row matches, and the operands are the bits the pattern strings mark `f`, `b` and `p`. -/
def Obligations.DecoderFollowsOpcodeMap : Prop :=
  (∀ (w : Word) (r : OpcodeRow), r ∈ opcodeRows →
    (r.hits w = true ↔ ∃ i : Instr, decode w = .command i ∧ i.mnemonic = r.mnemonic ∧ i.layer = r.layer)) ∧
  (∀ (w : Word) (i : Instr), decode w = .command i → ∃ r ∈ opcodeRows, r.mnemonic = i.mnemonic) ∧
  (∀ (w : Word) (r q : OpcodeRow), r ∈ opcodeRows → q ∈ opcodeRows → r.hits w = true → q.hits w = true → r = q) ∧
  (∀ (w : Word) (b : Bool), decode w = .command (.pushBit b) → b = w.getLsbD 16) ∧
  (∀ (w : Word) (v : Byte), decode w = .command (.pushByte v) → ∀ k, k < 8 → v.getLsbD k = w.getLsbD k) ∧
  (∀ (w : Word) (b : Bool), decode w = .command (.readByte b) → b = w.getLsbD 16) ∧
  (∀ (w : Word) (b : Bool), decode w = .command (.setOe b) → b = w.getLsbD 16) ∧
  (∀ (w : Word) (p : Int) (b : Bool), decode w = .command (.sWrite p b) →
    b = w.getLsbD 16 ∧ p = (w.toNat % 2 ^ 15 : Nat) - (if w.getLsbD 15 then 2 ^ 15 else 0))

/-- R65, read from the word's bits: (a) the opcode, (b) `rsv`, (c) `f`, (d) and (e) `arg`, (f) the layer. -/
def WordIsIllegal (w : Word) (layer : LayerName) : Prop :=
  let op := w.toNat / 2 ^ 28
  let rsv := w.toNat / 2 ^ 17 % 2 ^ 11
  let arg := w.toNat % 2 ^ 16
  (op = 0 ∨ 0xA ≤ op) ∨
  rsv ≠ 0 ∨
  (w.getLsbD 16 = true ∧ op ∈ [0x2, 0x3, 0x5, 0x6, 0x8]) ∨
  (arg ≠ 0 ∧ op ∈ [0x1, 0x3, 0x4, 0x5, 0x6, 0x7, 0x8]) ∨
  (arg / 2 ^ 8 ≠ 0 ∧ op = 0x2) ∨
  (layer = .stateful ∧ op ≤ 0x7) ∨
  (layer = .protocol ∧ 0x8 ≤ op)

/-- R65: presented with a word, a step refuses it exactly when the word is illegal, and otherwise completes. -/
def Obligations.IllegalWordsAreTheRefusedOnes : Prop :=
  ∀ (s : State) (w : Word) (rest : List HostInput), buildLegal s.build = true → s.host = .command w :: rest →
    (WordIsIllegal w (layerName s.build.layer) → ∃ r, step s = .refused r) ∧
    (¬ WordIsIllegal w (layerName s.build.layer) → ∃ t, step s = .next t)

/-! ## The step -/

/-- Presented with a word that decodes to a command, a step takes the word from the port and is `exec` of the command; nothing
else happens around it (R29, R58, R60). -/
def Obligations.StepRunsPresentedCommand : Prop :=
  ∀ (s : State) (w : Word) (rest : List HostInput) (i : Instr), buildLegal s.build = true →
    s.host = .command w :: rest → decode w = .command i → step s = exec i { s with host := rest }

/-- A host that presents nothing leaves the machine as it is (the model's choice of what an idle step is, log entry 8; R132
lets the host leave any gap). -/
def Obligations.IdleStepChangesNothing : Prop :=
  ∀ s : State, buildLegal s.build = true → s.host = [] → step s = .next s

/-- R66: a command of the build's own layer completes; a command of the other layer is refused, in either build. -/
def Obligations.LayerLegality : Prop :=
  ∀ (i : Instr) (s : State), buildLegal s.build = true →
    (i.layer = layerName s.build.layer → ∃ t, exec i s = .next t) ∧
    (i.layer ≠ layerName s.build.layer → exec i s = .refused .otherLayer)

/-- A `STATEFUL` build whose N is outside 1..4095 is refused (R7; U15). That the refusal has this name whatever the host
presents, an illegal word or a command of the other layer included, is the model's choice of an order of checks, log entry
14. -/
def Obligations.IllegalBuildIsRefused : Prop :=
  ∀ (s : State) (n : Nat), s.build.layer = .stateful n → (n = 0 ∨ 4095 < n) →
    step s = .refused .illegalBuild ∧ ∀ i : Instr, exec i s = .refused .illegalBuild

/-- Nothing but an illegal word stops a legal build (R120, R126): a step completes when the host presents nothing (an idle
step is log entry 8), when it asserts reset (log entry 11), and when it presents a word of the build's own layer, whatever the
operand and the state; and a step that does not complete was presented a word that R65 calls illegal. -/
def Obligations.OnlyIllegalWordsStop : Prop :=
  ∀ s : State, buildLegal s.build = true →
    (s.host = [] → ∃ t, step s = .next t) ∧
    (∀ rest, s.host = .reset :: rest → ∃ t, step s = .next t) ∧
    (∀ (w : Word) (rest : List HostInput) (i : Instr), s.host = .command w :: rest → decode w = .command i →
      i.layer = layerName s.build.layer → ∃ t, step s = .next t) ∧
    ((∀ t, step s ≠ .next t) →
      ∃ w rest, s.host = .command w :: rest ∧ WordIsIllegal w (layerName s.build.layer))

/-- What every command of the build's layer does: it completes, from any state and with any operand; the build parameters,
the directions and the words still to come are untouched; the trace and the responses only grow, and no event added is a
`Cfg` (R7, R13, R22, R55, R126). -/
def Obligations.EveryCommandCompletes : Prop :=
  ∀ (i : Instr) (s : State), buildLegal s.build = true → i.layer = layerName s.build.layer →
    ∃ (t : State) (es : List Event) (rs : List Byte), exec i s = .next t ∧
      t.build = s.build ∧ t.dir = s.dir ∧ t.host = s.host ∧
      t.trace = s.trace ++ es ∧ (∀ e ∈ es, ∀ l d, e ≠ .cfg l d) ∧ t.responses = s.responses ++ rs ∧
      rs.length = (match i with | .readBit => 1 | .readByte _ => 1 | _ => 0)

/-! ## The Protocol layer's commands -/

/-- `PUSHBIT s` (R80): the four events in order, `lvl[data]` and `lvl[clock]`, and one shift of the chain; a clock already
high at entry gives no edge and no shift. Nothing else changes. (Reference chain, log entries 3 and 6.) -/
def Obligations.PushBitShiftsOneBit : Prop :=
  ∀ (b : Bool) (s : State), ProtocolBuild s →
    ∃ c, exec (.pushBit b) s = .next
        { s with
          lvl := { s.lvl with data := b, clock := false }
          trace := s.trace ++ [.set .data b, .set .clock true, .delay 5, .set .clock false]
          chain := c } ∧
      (Quiescent s → c = s.chain.map (pushStages [b])) ∧
      (s.lvl.clock = true → clearLow s.build s.dir s.lvl = false → c = s.chain)

/-- `PUSHBYTE b` (R81): 32 events, bit 7 first; `lvl[data]` ends as bit 0; afterwards `sr[k] = b[k-1]` for k = 1..8 and every
older bit has moved eight stages on. Nothing else changes. (Reference chain, log entries 3 and 6.) -/
def Obligations.PushByteShiftsMostSignificantFirst : Prop :=
  ∀ (v : Byte) (s : State), ProtocolBuild s →
    ∃ c, exec (.pushByte v) s = .next
        { s with
          lvl := { s.lvl with data := bitOf v 0, clock := false }
          trace := s.trace ++ pushByteTrace v
          chain := c } ∧
      (Quiescent s → c = s.chain.map (pushStages (bitsLsbFirst v)))

/-- `READBIT` (R82): one sample and its bit as the response where the line is present, on a reference chain the last stage;
the sentinel 0 and no event otherwise. The chain is not shifted and nothing else changes. -/
def Obligations.ReadBitSamplesOnce : Prop :=
  ∀ s : State, ProtocolBuild s →
    (s.build.hasDout = true →
      ∃ c, exec .readBit s = .next
          { s with
            trace := s.trace ++ [.get (dataOutNow s)]
            gets := s.gets + 1
            responses := s.responses ++ [if dataOutNow s then 1 else 0]
            chain := c } ∧
        (Quiescent s → c = s.chain) ∧
        (∀ (k : Chain) (h : k.sr ≠ []), s.chain = some k → dataOutNow s = k.sr.getLast h)) ∧
    (s.build.hasDout = false → exec .readBit s = .next { s with responses := s.responses ++ [0] })

/-- What `READBIT` samples: the last stage of the chain attached (R52), the free value where none is (R27). -/
def Obligations.SampleIsLastStage : Prop :=
  (∀ (s : State) (c : Chain) (h : c.sr ≠ []), s.chain = some c → dataOutNow s = c.sr.getLast h) ∧
  (∀ s : State, s.chain = none → dataOutNow s = Config.dataOutLevel s.gets)

/-- `READBYTE pb` (R83, R84): eight iterations, each a read and then a push of the bit read or of 0; the response is
`sum r_j * 2^(7-j)`; with no `dataOut` line every bit is 0 and there is no `Get`. Nothing else changes.
(Reference chain, log entries 3 and 6.) -/
def Obligations.ReadByteReadsThenPushes : Prop :=
  ∀ (pb : Bool) (s : State), ProtocolBuild s →
    ∃ (rs : List Bool) (c : Option Chain), rs.length = 8 ∧
      exec (.readByte pb) s = .next
        { s with
          lvl := { s.lvl with data := pb && rs.getD 7 false, clock := false }
          trace := s.trace ++ rs.flatMap (readIterationTrace s.build.hasDout pb)
          gets := s.gets + (if s.build.hasDout then 8 else 0)
          responses := s.responses ++ [BitVec.ofNat 8 (readValue rs)]
          chain := c } ∧
      (s.build.hasDout = false → rs = List.replicate 8 false) ∧
      (Quiescent s → c = s.chain.map (pushStages (rs.map (pb && ·)).reverse))

/-- With nothing assumed of the environment the eight bits `READBYTE` assembles are the levels the environment presents at
the eight `Get` events, in order (R27, R84). The levels are the free value `Config.dataOutLevel`, whatever it is. -/
def Obligations.ReadByteTakesWhatEnvironmentPresents : Prop :=
  ∀ (pb : Bool) (s : State), ProtocolBuild s → s.build.hasDout = true → s.chain = none →
    ∃ t, exec (.readByte pb) s = .next t ∧ t.chain = none ∧ t.gets = s.gets + 8 ∧
      t.responses = s.responses ++
        [BitVec.ofNat 8 (readValue ((List.range 8).map fun j => Config.dataOutLevel (s.gets + j)))]

/-- What `READBYTE` reads of a chain of any width W >= 1, stage W first (R52, R83): with `pb = 1` the chain turns, so the
j-th bit read is `sr[W - j % W]`; with `pb = 0` it drains, so it is `sr[W - j]` while there is one and then 0.
(Reference chain, log entries 3 and 6.) -/
def Obligations.ReadByteReadsLastStages : Prop :=
  ∀ (pb : Bool) (s : State) (c : Chain), ProtocolBuild s → s.build.hasDout = true → Quiescent s →
    s.chain = some c → 1 ≤ c.sr.length →
    ∃ (t : State) (rs : List Bool), exec (.readByte pb) s = .next t ∧ rs.length = 8 ∧
      t.responses = s.responses ++ [BitVec.ofNat 8 (readValue rs)] ∧
      t.chain = some (pushStages (rs.map (pb && ·)).reverse c) ∧
      ∀ j, j < 8 →
        rs[j]? = (if pb then c.sr[c.sr.length - 1 - j % c.sr.length]?
          else if j < c.sr.length then c.sr[c.sr.length - 1 - j]? else some false)

/-- `CLEAR` (R85): where the `clear` line is present, the three events, after which every shift stage is 0 and the storage
register is as before; otherwise nothing at all. Nothing else changes. (Reference chain, log entries 3 and 6.) -/
def Obligations.ClearZeroesShiftStagesOnly : Prop :=
  ∀ s : State, ProtocolBuild s →
    (s.build.hasClear = true →
      ∃ c, exec .clear s = .next
          { s with
            lvl := { s.lvl with clear := true }
            trace := s.trace ++ [.set .clear false, .delay 5, .set .clear true]
            chain := c } ∧
        (DirsConfigured s →
          c = s.chain.map fun k => { sr := List.replicate k.sr.length false, st := k.st })) ∧
    (s.build.hasClear = false → exec .clear s = .next s)

/-- `SHOW` (R86): the three events; the storage register takes all shift stages at once. Nothing else changes.
(Reference chain, log entries 3 and 6.) -/
def Obligations.ShowTransfersAllStages : Prop :=
  ∀ s : State, ProtocolBuild s →
    ∃ c, exec .showOut s = .next
        { s with
          lvl := { s.lvl with latch := false }
          trace := s.trace ++ [.set .latch true, .delay 5, .set .latch false]
          chain := c } ∧
      (Quiescent s → c = s.chain.map fun k => { sr := k.sr, st := k.sr })

/-- `SETOE s` (R87): where the line is present, one event with the negation of `s`, after which the outputs are enabled exactly
when `s` is 1 and then show the storage register (R53); otherwise nothing, and the outputs stay enabled: the clauses on the
outputs are R53's, and without the line they rest on the chain's enable input being tied active (log entry 3). The chain's
registers do not change. -/
def Obligations.SetOeDrivesTheNegation : Prop :=
  ∀ (b : Bool) (s : State), ProtocolBuild s → DirsConfigured s → Quiescent s →
    (s.build.hasOe = true →
      ∃ t, exec (.setOe b) s = .next t ∧
        t = { s with
              lvl := { s.lvl with outputEnable := !b }
              trace := s.trace ++ [.set .outputEnable (!b)] } ∧
        outputsEnabled t = b ∧ (b = true → chainOutputs t = s.chain.map Chain.st)) ∧
    (s.build.hasOe = false → exec (.setOe b) s = .next s ∧ outputsEnabled s = true ∧
      chainOutputs s = s.chain.map Chain.st)

/-- The trace of a Protocol-layer command depends only on its operand, on the optional lines present and, where the command
samples, on what the environment presents: not on `shadow`, `lvl`, `dir` or anything the controller did before (R88). That two
runs at the same sample count are answered alike rests on the model's one free function of the count (log entry 5); sampling
from an attached chain is left to `ReadBitSamplesOnce` and `ReadByteReadsLastStages`. -/
def Obligations.TraceDependsOnOperandAndLines : Prop :=
  ∀ (i : Instr) (s s' : State), i.layer = .protocol → ProtocolBuild s → ProtocolBuild s' → s.build = s'.build →
    (s.build.hasDout = false ∨ (∀ pb, i ≠ .readBit ∧ i ≠ .readByte pb) ∨
      (s.chain = none ∧ s'.chain = none ∧ s.gets = s'.gets)) →
    ∃ (t t' : State) (es : List Event), exec i s = .next t ∧ exec i s' = .next t' ∧
      t.trace = s.trace ++ es ∧ t'.trace = s'.trace ++ es

/-! ## Laws of reading -/

/-- The peek law (R90): on a chain of eight stages, `PUSHBYTE b` and then `READBYTE 1` responds `b` and leaves
`sr[k] = b[k-1]`, the content it found. (Reference chain, log entries 3 and 6.) -/
def Obligations.PeekLaw : Prop :=
  ∀ (v : Byte) (s : State) (c : Chain), ProtocolBuild s → s.build.hasDout = true → Quiescent s →
    s.chain = some c → c.sr.length = 8 →
    ∃ t u, exec (.pushByte v) s = .next t ∧ exec (.readByte true) t = .next u ∧
      u.responses = s.responses ++ [v] ∧ t.chain = some { sr := bitsLsbFirst v, st := c.st } ∧ u.chain = t.chain

/-- The drain law (R91): where the last eight stages hold `b`, `READBYTE 0` responds `b` and leaves the first eight stages 0;
on a chain of eight stages a `READBYTE` with either operand then responds 0, and so it does on any cleared chain.
(Reference chain, log entries 3 and 6.) -/
def Obligations.DrainLaw : Prop :=
  ∀ (v : Byte) (front st : List Bool) (s : State), ProtocolBuild s → s.build.hasDout = true → Quiescent s →
    s.chain = some { sr := front ++ bitsLsbFirst v, st := st } →
    ∃ t, exec (.readByte false) s = .next t ∧ t.responses = s.responses ++ [v] ∧
      (∀ k, t.chain = some k → k.sr.take 8 = List.replicate 8 false) ∧ t.chain.isSome = true ∧
      (front = [] → ∀ pb, ∃ u, exec (.readByte pb) t = .next u ∧ u.responses = t.responses ++ [0]) ∧
      (v = 0 → (∀ x ∈ front, x = false) → ∀ pb, ∃ u, exec (.readByte pb) s = .next u ∧
        u.responses = s.responses ++ [0])

/-- Rotation (R92): on a chain of W > 8 stages `READBYTE 1` responds with the byte in the last eight stages and moves it to
the first eight, every other bit moving eight stages on. (Reference chain, log entries 3 and 6.) -/
def Obligations.ReadByteRotatesLongChain : Prop :=
  ∀ (v : Byte) (front st : List Bool) (s : State), ProtocolBuild s → s.build.hasDout = true → Quiescent s →
    s.chain = some { sr := front ++ bitsLsbFirst v, st := st } →
    ∃ t, exec (.readByte true) s = .next t ∧ t.responses = s.responses ++ [v] ∧
      t.chain = some { sr := bitsLsbFirst v ++ front, st := st }

/-- Bucket-brigade peeking (R92): on a chain of W = 8m stages, m successive `READBYTE 1` respond with all its bytes, the last
one first, and leave the chain as it was. (Reference chain, log entries 3 and 6.) -/
def Obligations.BucketBrigadeReadsWholeChain : Prop :=
  ∀ (m : Nat) (s : State) (c : Chain), ProtocolBuild s → s.build.hasDout = true → Quiescent s →
    s.chain = some c → c.sr.length = 8 * m →
    ∃ t, execAll (List.replicate m (.readByte true)) s = .next t ∧ t.chain = some c ∧
      t.responses = s.responses ++ (List.range m).map (fun j => stageByte c.sr (m - 1 - j))

/-! ## The State-Based Register's commands -/

/-- `SCLEAR` (R101): the events of the hardware clear or of the flood and then of the flush; every shadow byte is 0. The flood
and the flush together push 16N zeros (R158); the hardware clear zeroes every stage. Nothing else changes.
(Reference chain, log entries 3 and 6.) -/
def Obligations.SClearZeroesAndFlushes : Prop :=
  ∀ (n : Nat) (s : State), StatefulBuild n s →
    ∃ c, exec .sClear s = .next
        { s with
          shadow := List.replicate n 0
          lvl := { s.lvl with data := false, clock := false, latch := false, clear := s.build.hasClear || s.lvl.clear }
          trace := s.trace ++ clearRegisterTrace s.build.hasClear n
          chain := c } ∧
      (Quiescent s → DirsConfigured s → c = s.chain.map fun k =>
        if s.build.hasClear then
          { sr := List.replicate k.sr.length false, st := List.replicate k.sr.length false }
        else
          { sr := (List.replicate (16 * n) false ++ k.sr).take k.sr.length,
            st := (List.replicate (16 * n) false ++ k.sr).take k.sr.length })

/-- The two clear strategies are equivalent in effect (R102): with or without a `clear` line, on a chain of W <= 8N stages
holding anything, `SCLEAR` leaves the shadow buffer, the shift stages and the storage register all 0.
(Reference chain, log entries 3 and 6.) -/
def Obligations.ClearStrategiesEquivalent : Prop :=
  ∀ (n : Nat) (s : State), StatefulBuild n s → Quiescent s → DirsConfigured s →
    (∀ c, s.chain = some c → c.sr.length ≤ 8 * n) →
    ∃ t, exec .sClear s = .next t ∧ t.shadow = List.replicate n 0 ∧
      t.chain = s.chain.map fun k =>
        { sr := List.replicate k.sr.length false, st := List.replicate k.sr.length false }

/-- A valid `SWRITE pin, s` (R104): the one byte `pin / 8` has the bit of mask `1 << (pin % 8)` set or cleared, and the whole
buffer is flushed, also when nothing changed. Nothing else changes. (Reference chain, log entries 3 and 6.) -/
def Obligations.SWriteSetsOneBitAndFlushes : Prop :=
  ∀ (n : Nat) (pin : Int) (b : Bool) (s : State), StatefulBuild n s → ShadowSized s → 0 ≤ pin → pin < 8 * n →
    let old := s.shadow.getD (pin.toNat / 8) 0
    let new := if b then old ||| (1#8 <<< (pin.toNat % 8)) else old &&& ~~~(1#8 <<< (pin.toNat % 8))
    let shadow := s.shadow.set (pin.toNat / 8) new
    ∃ c, exec (.sWrite pin b) s = .next
        { s with
          shadow := shadow
          lvl := { s.lvl with data := bitOf (shadow.getD 0 0) 0, clock := false, latch := false }
          trace := s.trace ++ flushTrace shadow
          chain := c } ∧
      (Quiescent s → c = s.chain.map fun k =>
        { sr := (orderedBits shadow ++ k.sr).take k.sr.length,
          st := (orderedBits shadow ++ k.sr).take k.sr.length })

/-- An out-of-range `SWRITE` (R105) changes nothing: no event, no change to `shadow`, `lvl` or the chain, no response, for
either value of `s`. -/
def Obligations.SWriteOutOfRangeIsSilent : Prop :=
  ∀ (n : Nat) (pin : Int) (b : Bool) (s : State), StatefulBuild n s → (pin < 0 ∨ 8 * (n : Int) ≤ pin) →
    exec (.sWrite pin b) s = .next s

/-- The arithmetic of `SWRITE` (R103), on integers and 8-bit values: the range test, the quotient and the remainder, the
mask, and setting and clearing that carry into no other bit. -/
def Obligations.SWriteArithmetic : Prop :=
  (∀ (n : Nat) (pin : Int), pinInRange n pin = true ↔ 0 ≤ pin ∧ pin < 8 * (n : Int)) ∧
  (∀ (n : Nat) (pin : Int), pinInRange n pin = true →
    pinByte pin < n ∧ pinBit pin < 8 ∧ pin = 8 * (pinByte pin : Int) + (pinBit pin : Int)) ∧
  (∀ k, k < 8 → (bitMask k).toNat = 2 ^ k) ∧
  (∀ (v : Byte) (k j : Nat) (b : Bool), k < 8 → j < 8 →
    (assignBit v k b).getLsbD j = if j = k then b else v.getLsbD j)

/-- The write laws (R107): (a) and (b) a valid `SWRITE p, s` leaves bit p equal to s and every other bit as it was; (c) a 1 and
then a 0 leave bit p at 0 and the others as they were, the buffer restored if bit p was 0; (d) writes to different indices
commute in their effect on the buffer. -/
def Obligations.WriteLaws : Prop :=
  ∀ (n p q : Nat) (a b : Bool) (s : State), StatefulBuild n s → ShadowSized s → p < 8 * n → q < 8 * n →
    (∃ t, exec (.sWrite p a) s = .next t ∧
      ∀ k, k < 8 * n → logicalOutput t k = if k = p then a else logicalOutput s k) ∧
    (∃ t u, exec (.sWrite p true) s = .next t ∧ exec (.sWrite p false) t = .next u ∧
      (∀ k, k < 8 * n → logicalOutput u k = if k = p then false else logicalOutput s k) ∧
      (logicalOutput s p = false → u.shadow = s.shadow)) ∧
    (p ≠ q → ∃ t u t' u', exec (.sWrite p a) s = .next t ∧ exec (.sWrite q b) t = .next u ∧
      exec (.sWrite q b) s = .next t' ∧ exec (.sWrite p a) t' = .next u' ∧ u.shadow = u'.shadow)

/-- The bits a list of events puts on the `data` line, in order. -/
def dataBits (es : List Event) : List Bool :=
  es.filterMap fun e => match e with | .set .data b => some b | _ => none

/-- The order on the wire of a flush (R43): the `Set(data, .)` events of a valid `SWRITE` carry the logical outputs
8N-1, 8N-2, ..., 1, 0. -/
def Obligations.FlushSendsDescendingIndices : Prop :=
  ∀ (n : Nat) (pin : Int) (b : Bool) (s : State), StatefulBuild n s → ShadowSized s → 0 ≤ pin → pin < 8 * n →
    ∃ t es, exec (.sWrite pin b) s = .next t ∧ t.trace = s.trace ++ es ∧
      dataBits es = (List.range (8 * n)).reverse.map (logicalOutput t)

/-- A flush brings the chain to the shadow buffer whatever the chain held before (R100, R44): after `SCLEAR` and after every
valid `SWRITE`, `sr[p+1] = st[p+1] = shadow[p/8][p%8]` for every p < 8N that has a stage.
(Reference chain, log entries 3 and 6.) -/
def Obligations.FlushSynchronises : Prop :=
  ∀ (n : Nat) (s : State), StatefulBuild n s → Quiescent s → DirsConfigured s → ShadowSized s →
    (∃ t, exec .sClear s = .next t ∧ Synced t) ∧
    (∀ (pin : Int) (b : Bool), 0 ≤ pin → pin < 8 * n → ∃ t, exec (.sWrite pin b) s = .next t ∧ Synced t)

/-! ## Invariants of the command boundary -/

/-- The controller's boundary invariant: directions as reset left them (R22), quiescent levels (R25), a shadow buffer of N
bytes (R21), a chain whose two registers keep their width (R48). Every step keeps it: commands and resets alike. -/
def Obligations.StepKeepsBoundary : Prop :=
  ∀ s t : State, Boundary s → step s = .next t → Boundary t

/-- The synchronisation invariant (R106): every step keeps `st[p+1] = sr[p+1] = shadow[p/8][p%8]`.
(Reference chain, log entries 3 and 6.) -/
def Obligations.StepKeepsChainSynchronised : Prop :=
  ∀ s t : State, Boundary s → Synced s → step s = .next t → Boundary t ∧ Synced t

/-- The state after reset meets every invariant stated here.
(The build and the chain of `State.reset` are the model's choice, log entry 7.) -/
def Obligations.ResetMeetsInvariants : Prop :=
  Boundary State.reset ∧ Synced State.reset ∧ LinesFollowTrace State.reset ∧ OnlyPresentLines State.reset ∧
  WellTimed State.reset.trace ∧ (∀ e ∈ State.reset.trace, e.isGet = false) ∧ State.reset.responses = []

/-- `dir` and `lvl` are what the `Cfg` and `Set` events since reset have made them, and nothing else writes them (R22, R23). -/
def Obligations.StepKeepsLinesFollowTrace : Prop :=
  ∀ s t : State, LinesFollowTrace s → step s = .next t → LinesFollowTrace t

/-- An absent line is never configured, driven or sampled (R9). -/
def Obligations.StepNeverNamesAbsentLine : Prop :=
  ∀ s t : State, OnlyPresentLines s → step s = .next t → OnlyPresentLines t

/-- The trace is made of whole pulses (R150, R151): data immediately before the clock edge it belongs to, exactly one settle
delay inside every clock, clear and latch pulse, and no other delay. -/
def Obligations.StepKeepsWellTimed : Prop :=
  ∀ s t : State, WellTimed s.trace → step s = .next t → WellTimed t.trace

/-- What the stateful layer cannot do (R108): a `STATEFUL` build never samples `dataOut`, never responds, and keeps its
outputs enabled, at the level reset gave `outputEnable`. That the outputs of a build without the line are enabled is R53's and
rests on the chain's enable input being tied active (log entry 3). -/
def Obligations.StatefulNeverReads : Prop :=
  ∀ (n : Nat) (s t : State), s.build.layer = .stateful n → Boundary s → (∀ e ∈ s.trace, e.isGet = false) →
    s.responses = [] → step s = .next t →
    (∀ e ∈ t.trace, e.isGet = false) ∧ t.responses = [] ∧
    (s.build.hasOe = true → t.lvl.outputEnable = false) ∧ outputsEnabled t = true

/-- Only pulses of `latch` and pushes reach the chain: of the seven Protocol-layer commands, `SHOW` alone changes the storage
register, and `SHOW`, `READBIT` and `SETOE` leave the shift stages alone (R28, R47, R50, R53).
(Reference chain, log entries 3 and 6.) -/
def Obligations.OnlyShowChangesOutputs : Prop :=
  ∀ (i : Instr) (s t : State), i.layer = .protocol → Boundary s → exec i s = .next t →
    (i ≠ .showOut → t.chain.map Chain.st = s.chain.map Chain.st) ∧
    (i = .showOut ∨ i = .readBit ∨ (∃ b, i = .setOe b) → t.chain.map Chain.sr = s.chain.map Chain.sr)

/-! ## Events, pins and the chain -/

/-- How the reference chain reacts to one event (R49, R50, R51): a shift on a rising clock edge while clear is inactive, a
transfer on a rising latch edge and at no other event, all stages 0 while `clear` is driven low.
(Reference chain, log entries 3, 6 and 12.) -/
def Obligations.ChainReactsToEdges : Prop :=
  ∀ (s : State) (e : Event) (c : Chain), s.chain = some c →
    ∃ k, (issue s e).chain = some k ∧
      (e = .set .clock true → s.lvl.clock = false → clearLow s.build s.dir s.lvl = false →
        k.sr.length = c.sr.length ∧ (∀ h : 0 < k.sr.length, k.sr[0] = s.lvl.data) ∧
        ∀ j, j + 1 < c.sr.length → k.sr[j + 1]? = c.sr[j]?) ∧
      (e = .set .clock true → s.lvl.clock = true → clearLow s.build s.dir s.lvl = false → k = c) ∧
      (e = .set .clock false → clearLow s.build s.dir s.lvl = false → k = c) ∧
      (e = .set .latch true → s.lvl.latch = false → k.st = c.sr) ∧
      (¬ (e = .set .latch true ∧ s.lvl.latch = false) → k.st = c.st) ∧
      (clearLow s.build (dirsAfter s.dir e) (levelsAfter s.lvl e) = true →
        k.sr = List.replicate c.sr.length false)

/-- What each event does to the line registers and to what is observed (R11, R22, R23). -/
def Obligations.EventEffects : Prop :=
  ∀ s : State,
    (∀ l d, (issue s (.cfg l d)).dir = setDir s.dir l (dirOfDirection d) ∧ (issue s (.cfg l d)).lvl = s.lvl) ∧
    (∀ l v, (issue s (.set l v)).lvl = setLevel s.lvl l v ∧ (issue s (.set l v)).dir = s.dir) ∧
    (∀ v, (issue s (.get v)).lvl = s.lvl ∧ (issue s (.get v)).dir = s.dir) ∧
    (∀ k, (issue s (.delay k)).lvl = s.lvl ∧ (issue s (.delay k)).dir = s.dir) ∧
    (∀ l v k, dirOf (setDir s.dir l v) k = if k = l then v else dirOf s.dir k) ∧
    (∀ l v k, levelOf (setLevel s.lvl l v) k = if k = l then v else levelOf s.lvl k) ∧
    (∀ e, (issue s e).trace = s.trace ++ [e] ∧ (issue s e).shadow = s.shadow ∧
      (issue s e).responses = s.responses ∧ (issue s e).build = s.build ∧ (issue s e).host = s.host)

/-- The electrical value on a driven line's pin (R24): its level where it is an output, high impedance where it is not, which
for a present line not yet configured is the spec's own reading (D12). With the directions that reset left (R22, R33) that is
the level for a present line and nothing for an absent one. -/
def Obligations.PinPads : Prop :=
  (∀ (d : Dirs) (v : Levels) (l : Driven),
    (dirOf d (drivenLine l) = .output → pad d v l = some (levelOf v l)) ∧
    (dirOf d (drivenLine l) ≠ .output → pad d v l = none)) ∧
  (∀ (s : State) (l : Driven), DirsConfigured s →
    pad s.dir s.lvl l = if present s.build (drivenLine l) then some (levelOf s.lvl l) else none)

/-! ## Reset -/

/-- The reset trace (R140, R141): every present line is configured, in some order the statement does not fix (U10), then
`clear` goes inactive, then the outputs are enabled; a `STATEFUL` build goes on with the body of `SCLEAR`. -/
def Obligations.ResetTrace : Prop :=
  ∀ s : State, ∃ cfgs : List Event,
    cfgs.Perm
      ([.cfg .data .output, .cfg .clock .output, .cfg .latch .output] ++
       (if s.build.hasClear then [.cfg .clear .output] else []) ++
       (if s.build.hasDout then [.cfg .dataOut .input] else []) ++
       (if s.build.hasOe then [.cfg .outputEnable .output] else [])) ∧
    (releaseReset s).trace =
      cfgs ++ (if s.build.hasClear then [.set .clear true] else []) ++
      (if s.build.hasOe then [.set .outputEnable false] else []) ++
      (match s.build.layer with
       | .protocol => []
       | .stateful n => clearRegisterTrace s.build.hasClear n)

/-- The state once the reset sequence has finished (R33), for every build and whatever the controller held: the directions,
the levels and, in a `STATEFUL` build, the shadow buffer; nothing else of the host's touched. That the responses of before a
reset are no longer in the record is the model's reading, log entry 11. -/
def Obligations.ResetLeavesTheSpecifiedState : Prop :=
  ∀ s : State, buildLegal s.build = true →
    (releaseReset s).dir = resetDirs s.build ∧
    (releaseReset s).lvl = resetLevels s.build ∧
    (∀ n, s.build.layer = .stateful n → (releaseReset s).shadow = List.replicate n 0) ∧
    (releaseReset s).responses = [] ∧ (releaseReset s).build = s.build ∧ (releaseReset s).host = s.host

/-- What reset does to the chain (R143, R145, and the note of R33): a `STATEFUL` build leaves a chain of W <= 8N stages all 0
whatever it held; a `PROTOCOL` build leaves the storage register as it was. (Reference chain, log entries 3 and 6.) -/
def Obligations.ResetAndTheChain : Prop :=
  ∀ (s : State) (c : Chain), s.chain = some c →
    (∀ n, StatefulBuild n s → c.sr.length ≤ 8 * n →
      (releaseReset s).chain = some { sr := List.replicate c.sr.length false, st := List.replicate c.sr.length false }) ∧
    (ProtocolBuild s → ∃ sr, (releaseReset s).chain = some { sr := sr, st := c.st })

/-- The reset state of the model is what its build's reset sequence leaves from any power-on content of its chain (R141,
R143; the choice of this build is the model's, log entry 7). (Reference chain, log entries 3 and 6.) -/
def Obligations.ResetStateFromAnyPowerOn : Prop :=
  ∀ c : Chain, c.sr.length = 16 →
    State.reset = releaseReset (State.powerOn State.reset.build (some c))

/-- Reset asserted between commands has the effect of power-up, but for the chain, which keeps its contents until the
sequence overwrites them (R145). (Log entries 8 and 11.) -/
def Obligations.LaterResetIsPowerUp : Prop :=
  ∀ (s : State) (rest : List HostInput), buildLegal s.build = true → ShadowSized s → s.host = .reset :: rest →
    step s = .next { releaseReset (State.powerOn s.build s.chain) with host := rest, gets := s.gets }

/-! ## Counts -/

/-- The event counts and least durations of R161's table, for every command. -/
def Obligations.EventCountsAndDurations : Prop :=
  ∀ (i : Instr) (s t : State), exec i s = .next t →
    ∃ es, t.trace = s.trace ++ es ∧ es.length = eventCount s.build (buildBytes s.build) i ∧
      (es.map Event.leastMicros).sum = leastDuration s.build (buildBytes s.build) i
end

