-- ==== Sys2Proof/Laws/Encoding.lean ====
section
/-! SUPPORT. The fields of a word and the word of the fields (R61): one is the inverse of the other. -/

namespace Sys2Proof

/-- Every bit of a packed word (R61). -/
theorem getLsbD_packFields (op : BitVec 4) (f : Bool) (arg : BitVec 16) (i : Nat) :
    (packFields op f arg).getLsbD i =
      if i < 16 then arg.getLsbD i else if i = 16 then f else if i < 28 then false else op.getLsbD (i - 28) := by
  unfold packFields
  simp only [BitVec.getLsbD_append]
  by_cases h1 : i < 16
  · simp only [h1, if_true]
  · by_cases h2 : i = 16
    · subst h2; simp
    · by_cases h3 : i < 28
      · have h4 : ¬ i - 16 < 1 := by omega
        have h5 : i - 16 - 1 < 11 := by omega
        simp only [h1, h2, h3, h4, h5, if_true, if_false]; simp
      · have h4 : ¬ i - 16 < 1 := by omega
        have h5 : ¬ i - 16 - 1 < 11 := by omega
        simp only [h1, h2, h3, h4, h5, if_false]
        rw [show i - 16 - 1 - 11 = i - 28 by omega]

@[simp] theorem opField_packFields (op : BitVec 4) (f : Bool) (arg : BitVec 16) : opField (packFields op f arg) = op := by
  apply BitVec.eq_of_getLsbD_eq; intro i hi
  unfold opField
  rw [BitVec.getLsbD_extractLsb', getLsbD_packFields, if_neg (by omega), if_neg (by omega), if_neg (by omega),
    show 28 + i - 28 = i by omega]
  simp only [hi, decide_true, Bool.true_and]

@[simp] theorem rsvField_packFields (op : BitVec 4) (f : Bool) (arg : BitVec 16) :
    rsvField (packFields op f arg) = 0 := by
  apply BitVec.eq_of_getLsbD_eq; intro i hi
  unfold rsvField
  rw [BitVec.getLsbD_extractLsb', getLsbD_packFields, if_neg (by omega), if_neg (by omega), if_pos (by omega)]
  simp

@[simp] theorem fField_packFields (op : BitVec 4) (f : Bool) (arg : BitVec 16) : fField (packFields op f arg) = f := by
  unfold fField
  rw [getLsbD_packFields, if_neg (by omega), if_pos rfl]

@[simp] theorem argField_packFields (op : BitVec 4) (f : Bool) (arg : BitVec 16) :
    argField (packFields op f arg) = arg := by
  apply BitVec.eq_of_getLsbD_eq; intro i hi
  unfold argField
  rw [BitVec.getLsbD_extractLsb', getLsbD_packFields, if_pos (by omega), Nat.zero_add]
  simp only [hi, decide_true, Bool.true_and]

/-- A word whose reserved bits are 0 is the word of its fields. -/
theorem packFields_of_word (w : Word) (h : rsvField w = 0) : packFields (opField w) (fField w) (argField w) = w := by
  have hr : ∀ j, j < 11 → w.getLsbD (17 + j) = false := by
    intro j hj
    have e := congrArg (fun v => v.getLsbD j) h
    simpa [rsvField, BitVec.getLsbD_extractLsb', hj] using e
  apply BitVec.eq_of_getLsbD_eq; intro i hi
  rw [getLsbD_packFields]
  unfold opField fField argField
  rw [BitVec.getLsbD_extractLsb', BitVec.getLsbD_extractLsb']
  by_cases h1 : i < 16
  · simp [h1]
  · by_cases h2 : i = 16
    · simp [h2]
    · by_cases h3 : i < 28
      · have e := hr (i - 17) (by omega)
        rw [show 17 + (i - 17) = i by omega] at e
        rw [if_neg h1, if_neg h2, if_pos h3, e]
      · rw [if_neg h1, if_neg h2, if_neg h3, show 28 + (i - 28) = i by omega]
        simp; omega

/-- The byte operand goes into `arg[7:0]` and comes back (R62). -/
theorem argByte_byteArg (v : Byte) : argByte (byteArg v) = v := by
  revert v; decide

theorem argHigh_byteArg (v : Byte) : argHigh (byteArg v) = 0 := by
  revert v; decide

/-- An argument with `arg[15:8]` zero is its byte (R65 (e)). -/
theorem byteArg_argByte (a : BitVec 16) (h : argHigh a = 0) : byteArg (argByte a) = a := by
  apply BitVec.eq_of_getLsbD_eq; intro i hi
  unfold byteArg argByte
  rw [BitVec.getLsbD_setWidth, BitVec.getLsbD_extractLsb']
  by_cases h8 : i < 8
  · simp [h8, hi]
  · have e := congrArg (fun v => v.getLsbD (i - 8)) h
    have hi8 : i - 8 < 8 := by omega
    simp [argHigh, hi8, show 8 + (i - 8) = i by omega] at e
    simp [h8, e]

/-- An index goes into `arg` and comes back (R62). -/
theorem sext16_pinArg (pin : Int) (h : -32768 ≤ pin ∧ pin ≤ 32767) : sext16 (pinArg pin) = pin := by
  unfold sext16 pinArg
  rw [BitVec.toInt_ofInt]
  unfold Int.bmod
  simp; omega

theorem pinArg_sext16 (a : BitVec 16) : pinArg (sext16 a) = a := by
  unfold sext16 pinArg
  simp

/-- `sext_16` is an integer in -32768..32767 (R12). -/
theorem sext16_range (a : BitVec 16) : -32768 ≤ sext16 a ∧ sext16 a ≤ 32767 := by
  unfold sext16
  have h1 := BitVec.le_toInt a
  have h2 := BitVec.toInt_lt (x := a)
  omega

end Sys2Proof
end

