-- ==== Sys2Proof/Laws/State.lean ====
section
/-! SUPPORT. The fields of every named update of the state, so that no proof unfolds a record update. -/

namespace Sys2Proof.Machine

@[simp] theorem respond_build (v : Byte) (s : State) : (respond v s).build = s.build := rfl
@[simp] theorem respond_shadow (v : Byte) (s : State) : (respond v s).shadow = s.shadow := rfl
@[simp] theorem respond_dir (v : Byte) (s : State) : (respond v s).dir = s.dir := rfl
@[simp] theorem respond_lvl (v : Byte) (s : State) : (respond v s).lvl = s.lvl := rfl
@[simp] theorem respond_chain (v : Byte) (s : State) : (respond v s).chain = s.chain := rfl
@[simp] theorem respond_host (v : Byte) (s : State) : (respond v s).host = s.host := rfl
@[simp] theorem respond_trace (v : Byte) (s : State) : (respond v s).trace = s.trace := rfl
@[simp] theorem respond_responses (v : Byte) (s : State) : (respond v s).responses = s.responses ++ [v] := rfl
@[simp] theorem respond_gets (v : Byte) (s : State) : (respond v s).gets = s.gets := rfl

@[simp] theorem setShadowByte_build (i : Nat) (v : Byte) (s : State) : (setShadowByte s i v).build = s.build := rfl
@[simp] theorem setShadowByte_shadow (i : Nat) (v : Byte) (s : State) : (setShadowByte s i v).shadow = s.shadow.set i v := rfl
@[simp] theorem setShadowByte_dir (i : Nat) (v : Byte) (s : State) : (setShadowByte s i v).dir = s.dir := rfl
@[simp] theorem setShadowByte_lvl (i : Nat) (v : Byte) (s : State) : (setShadowByte s i v).lvl = s.lvl := rfl
@[simp] theorem setShadowByte_chain (i : Nat) (v : Byte) (s : State) : (setShadowByte s i v).chain = s.chain := rfl
@[simp] theorem setShadowByte_host (i : Nat) (v : Byte) (s : State) : (setShadowByte s i v).host = s.host := rfl
@[simp] theorem setShadowByte_trace (i : Nat) (v : Byte) (s : State) : (setShadowByte s i v).trace = s.trace := rfl
@[simp] theorem setShadowByte_responses (i : Nat) (v : Byte) (s : State) : (setShadowByte s i v).responses = s.responses := rfl
@[simp] theorem setShadowByte_gets (i : Nat) (v : Byte) (s : State) : (setShadowByte s i v).gets = s.gets := rfl

@[simp] theorem zeroShadow_build (n : Nat) (s : State) : (zeroShadow n s).build = s.build := rfl
@[simp] theorem zeroShadow_shadow (n : Nat) (s : State) : (zeroShadow n s).shadow = List.replicate n 0 := rfl
@[simp] theorem zeroShadow_dir (n : Nat) (s : State) : (zeroShadow n s).dir = s.dir := rfl
@[simp] theorem zeroShadow_lvl (n : Nat) (s : State) : (zeroShadow n s).lvl = s.lvl := rfl
@[simp] theorem zeroShadow_chain (n : Nat) (s : State) : (zeroShadow n s).chain = s.chain := rfl
@[simp] theorem zeroShadow_host (n : Nat) (s : State) : (zeroShadow n s).host = s.host := rfl
@[simp] theorem zeroShadow_trace (n : Nat) (s : State) : (zeroShadow n s).trace = s.trace := rfl
@[simp] theorem zeroShadow_responses (n : Nat) (s : State) : (zeroShadow n s).responses = s.responses := rfl
@[simp] theorem zeroShadow_gets (n : Nat) (s : State) : (zeroShadow n s).gets = s.gets := rfl

@[simp] theorem takeInput_build (s : State) : (takeInput s).build = s.build := rfl
@[simp] theorem takeInput_shadow (s : State) : (takeInput s).shadow = s.shadow := rfl
@[simp] theorem takeInput_dir (s : State) : (takeInput s).dir = s.dir := rfl
@[simp] theorem takeInput_lvl (s : State) : (takeInput s).lvl = s.lvl := rfl
@[simp] theorem takeInput_chain (s : State) : (takeInput s).chain = s.chain := rfl
@[simp] theorem takeInput_host (s : State) : (takeInput s).host = s.host.tail := rfl
@[simp] theorem takeInput_trace (s : State) : (takeInput s).trace = s.trace := rfl
@[simp] theorem takeInput_responses (s : State) : (takeInput s).responses = s.responses := rfl
@[simp] theorem takeInput_gets (s : State) : (takeInput s).gets = s.gets := rfl

@[simp] theorem presentWord_build (w : Word) (s : State) : (presentWord w s).build = s.build := rfl
@[simp] theorem presentWord_shadow (w : Word) (s : State) : (presentWord w s).shadow = s.shadow := rfl
@[simp] theorem presentWord_dir (w : Word) (s : State) : (presentWord w s).dir = s.dir := rfl
@[simp] theorem presentWord_lvl (w : Word) (s : State) : (presentWord w s).lvl = s.lvl := rfl
@[simp] theorem presentWord_chain (w : Word) (s : State) : (presentWord w s).chain = s.chain := rfl
@[simp] theorem presentWord_host (w : Word) (s : State) : (presentWord w s).host = .command w :: s.host := rfl
@[simp] theorem presentWord_trace (w : Word) (s : State) : (presentWord w s).trace = s.trace := rfl
@[simp] theorem presentWord_responses (w : Word) (s : State) : (presentWord w s).responses = s.responses := rfl
@[simp] theorem presentWord_gets (w : Word) (s : State) : (presentWord w s).gets = s.gets := rfl

@[simp] theorem assertReset_build (s : State) : (assertReset s).build = s.build := rfl
@[simp] theorem assertReset_shadow (s : State) : (assertReset s).shadow = s.shadow := rfl
@[simp] theorem assertReset_dir (s : State) : (assertReset s).dir = dirsUnconfigured := rfl
@[simp] theorem assertReset_lvl (s : State) : (assertReset s).lvl = levelsLow := rfl
@[simp] theorem assertReset_chain (s : State) : (assertReset s).chain = s.chain := rfl
@[simp] theorem assertReset_host (s : State) : (assertReset s).host = s.host := rfl
@[simp] theorem assertReset_trace (s : State) : (assertReset s).trace = [] := rfl
@[simp] theorem assertReset_responses (s : State) : (assertReset s).responses = [] := rfl
@[simp] theorem assertReset_gets (s : State) : (assertReset s).gets = s.gets := rfl

@[simp] theorem issue_build (s : State) (e : Event) : (issue s e).build = s.build := rfl
@[simp] theorem issue_shadow (s : State) (e : Event) : (issue s e).shadow = s.shadow := rfl
@[simp] theorem issue_dir (s : State) (e : Event) : (issue s e).dir = dirsAfter s.dir e := rfl
@[simp] theorem issue_lvl (s : State) (e : Event) : (issue s e).lvl = levelsAfter s.lvl e := rfl
@[simp] theorem issue_chain (s : State) (e : Event) : (issue s e).chain = s.chain.map (chainAfter s.build s.dir s.lvl e) := rfl
@[simp] theorem issue_host (s : State) (e : Event) : (issue s e).host = s.host := rfl
@[simp] theorem issue_trace (s : State) (e : Event) : (issue s e).trace = s.trace ++ [e] := rfl
@[simp] theorem issue_responses (s : State) (e : Event) : (issue s e).responses = s.responses := rfl
@[simp] theorem issue_gets (s : State) (e : Event) : (issue s e).gets = getsAfter s.gets e := rfl

end Sys2Proof.Machine
end

