-- ==== Sys2Proof/Laws/Ops.lean ====
section
/-! SUPPORT. What issuing a list of events does, field by field, and what the reference chain makes of it. -/

namespace Sys2Proof.Machine

@[simp] theorem issueAll_nil (s : State) : issueAll [] s = s := rfl

theorem issueAll_cons (e : Event) (es : List Event) (s : State) : issueAll (e :: es) s = issueAll es (issue s e) := rfl

theorem issueAll_append (es fs : List Event) (s : State) : issueAll (es ++ fs) s = issueAll fs (issueAll es s) := by
  simp [issueAll]

@[simp] theorem issueAll_trace (es : List Event) (s : State) : (issueAll es s).trace = s.trace ++ es := by
  induction es generalizing s with
  | nil => simp
  | cons e es ih => rw [issueAll_cons, ih]; simp

@[simp] theorem issueAll_dir (es : List Event) (s : State) : (issueAll es s).dir = es.foldl dirsAfter s.dir := by
  induction es generalizing s with
  | nil => simp
  | cons e es ih => rw [issueAll_cons, ih]; simp

@[simp] theorem issueAll_lvl (es : List Event) (s : State) : (issueAll es s).lvl = es.foldl levelsAfter s.lvl := by
  induction es generalizing s with
  | nil => simp
  | cons e es ih => rw [issueAll_cons, ih]; simp

@[simp] theorem issueAll_gets (es : List Event) (s : State) : (issueAll es s).gets = es.foldl getsAfter s.gets := by
  induction es generalizing s with
  | nil => simp
  | cons e es ih => rw [issueAll_cons, ih]; simp

@[simp] theorem issueAll_build (es : List Event) (s : State) : (issueAll es s).build = s.build := by
  induction es generalizing s with
  | nil => simp
  | cons e es ih => rw [issueAll_cons, ih]; simp

@[simp] theorem issueAll_shadow (es : List Event) (s : State) : (issueAll es s).shadow = s.shadow := by
  induction es generalizing s with
  | nil => simp
  | cons e es ih => rw [issueAll_cons, ih]; simp

@[simp] theorem issueAll_host (es : List Event) (s : State) : (issueAll es s).host = s.host := by
  induction es generalizing s with
  | nil => simp
  | cons e es ih => rw [issueAll_cons, ih]; simp

@[simp] theorem issueAll_responses (es : List Event) (s : State) : (issueAll es s).responses = s.responses := by
  induction es generalizing s with
  | nil => simp
  | cons e es ih => rw [issueAll_cons, ih]; simp

/-- The chain after a list of events that finds the lines as given. -/
def chainRun (b : Build) : List Event → Dirs → Levels → Chain → Chain
  | [], _, _, c => c
  | e :: es, d, v, c => chainRun b es (dirsAfter d e) (levelsAfter v e) (chainAfter b d v e c)

@[simp] theorem issueAll_chain (es : List Event) (s : State) :
    (issueAll es s).chain = s.chain.map (chainRun s.build es s.dir s.lvl) := by
  induction es generalizing s with
  | nil => cases h : s.chain <;> simp [chainRun, h]
  | cons e es ih => rw [issueAll_cons, ih]; cases h : s.chain <;> simp [chainRun, h]

/-- Everything `issueAll` can do, as one record. -/
theorem issueAll_eq (es : List Event) (s : State) :
    issueAll es s = { s with
      dir := es.foldl dirsAfter s.dir
      lvl := es.foldl levelsAfter s.lvl
      chain := s.chain.map (chainRun s.build es s.dir s.lvl)
      trace := s.trace ++ es
      gets := es.foldl getsAfter s.gets } := by
  rw [← issueAll_dir, ← issueAll_lvl, ← issueAll_chain, ← issueAll_trace, ← issueAll_gets]
  conv_lhs => rw [show issueAll es s = ⟨(issueAll es s).build, (issueAll es s).shadow, (issueAll es s).dir,
    (issueAll es s).lvl, (issueAll es s).chain, (issueAll es s).host, (issueAll es s).trace,
    (issueAll es s).responses, (issueAll es s).gets⟩ from rfl]
  rw [issueAll_build, issueAll_shadow, issueAll_host, issueAll_responses]

theorem chainRun_append (b : Build) (es fs : List Event) (d : Dirs) (v : Levels) (c : Chain) :
    chainRun b (es ++ fs) d v c =
      chainRun b fs (es.foldl dirsAfter d) (es.foldl levelsAfter v) (chainRun b es d v c) := by
  induction es generalizing d v c with
  | nil => rfl
  | cons e es ih => simp [chainRun, ih]

/-- With the `clear` line inactive, or none, the chain is not being cleared. -/
theorem clearLow_eq_false {b : Build} {v : Levels} (h : b.hasClear = true → v.clear = true) (d : Dirs) :
    clearLow b d v = false := by
  unfold clearLow pad
  cases hc : b.hasClear
  · rfl
  · cases hd : d.clear <;> simp [dirOf, drivenLine, levelOf, hd, h hc]

/-! Pushing. -/

theorem pushStages_nil (c : Chain) : pushStages [] c = c := by
  simp [pushStages]

theorem pushStages_append (xs ys : List Bool) (c : Chain) :
    pushStages xs (pushStages ys c) = pushStages (xs ++ ys) c := by
  simp only [pushStages, Chain.mk.injEq, and_true, List.length_take, List.length_append]
  rw [List.append_assoc, List.take_append, List.take_append (l₁ := xs), List.take_take]
  congr 2 <;> omega

@[simp] theorem pushStages_length (xs : List Bool) (c : Chain) : (pushStages xs c).sr.length = c.sr.length := by
  simp [pushStages]

@[simp] theorem pushStages_st (xs : List Bool) (c : Chain) : (pushStages xs c).st = c.st := rfl

theorem levels_pushBit (x : Bool) (v : Levels) :
    (pushBitTrace x).foldl levelsAfter v = { v with data := x, clock := false } := rfl

theorem dirs_pushBit (x : Bool) (d : Dirs) : (pushBitTrace x).foldl dirsAfter d = d := rfl

/-- One push shifts the chain by one stage, where the clock is low and clear inactive (R80). -/
theorem chainRun_pushBit (b : Build) (d : Dirs) (v : Levels) (x : Bool) (c : Chain) (hk : v.clock = false)
    (hc : b.hasClear = true → v.clear = true) : chainRun b (pushBitTrace x) d v c = pushStages [x] c := by
  have e : ∀ d' v', v'.clear = v.clear → clearLow b d' v' = false := fun d' v' h => clearLow_eq_false (h ▸ hc) d'
  simp [chainRun, pushBitTrace, chainAfter, chainHeld, chainEdge, levelsAfter, setLevel, dirsAfter, hk, pushStages, shiftIn]
  simp [e]

/-- Pushes in wire order end in the stages in the opposite order (R44). -/
theorem chainRun_pushes (b : Build) (d : Dirs) (bits : List Bool) (v : Levels) (c : Chain) (hk : v.clock = false)
    (hc : b.hasClear = true → v.clear = true) :
    chainRun b (bits.flatMap pushBitTrace) d v c = pushStages bits.reverse c := by
  induction bits generalizing v c with
  | nil => simp [chainRun, pushStages_nil]
  | cons x bits ih =>
    rw [List.flatMap_cons, chainRun_append, levels_pushBit, dirs_pushBit, chainRun_pushBit b d v x c hk hc,
      ih { v with data := x, clock := false } _ rfl hc, pushStages_append, List.reverse_cons]

theorem levels_pushes (bits : List Bool) (v : Levels) (h : bits ≠ []) :
    (bits.flatMap pushBitTrace).foldl levelsAfter v = { v with data := bits.getLast h, clock := false } := by
  induction bits generalizing v with
  | nil => exact absurd rfl h
  | cons x bits ih =>
    rw [List.flatMap_cons, List.foldl_append, levels_pushBit]
    cases bits with
    | nil => rfl
    | cons y bits => rw [ih _ (by simp)]; simp

theorem dirs_pushes (bits : List Bool) (d : Dirs) : (bits.flatMap pushBitTrace).foldl dirsAfter d = d := by
  induction bits with
  | nil => rfl
  | cons x bits ih => rw [List.flatMap_cons, List.foldl_append, dirs_pushBit, ih]

theorem gets_pushes (bits : List Bool) (k : Nat) : (bits.flatMap pushBitTrace).foldl getsAfter k = k := by
  induction bits with
  | nil => rfl
  | cons x bits ih => rw [List.flatMap_cons, List.foldl_append]; exact ih

end Sys2Proof.Machine
end

