-- ==== Sys2Proof/Laws/Procedures.lean ====
section
/-! SUPPORT. Every procedure as the list of events its rule gives: what it does then follows from `issueAll_eq`. -/

namespace Sys2Proof.Machine

/-! The Protocol layer's bodies. -/

theorem pushBit_eq (b : Bool) (s : State) : pushBit b s = issueAll (pushBitTrace b) s := rfl

theorem pushByte_eq (v : Byte) (s : State) : pushByte v s = issueAll (pushByteTrace v) s := by
  simp only [pushByte, pushBitsBelow, pushBit_eq, pushByteTrace, bitsMsbFirst, List.flatMap_cons, List.flatMap_nil,
    issueAll_append, issueAll_nil]

theorem readBit_eq (s : State) :
    readBit s = (s.build.hasDout && dataOutNow s,
      issueAll (if s.build.hasDout then [.get (s.build.hasDout && dataOutNow s)] else []) s) := by
  unfold readBit; split <;> rename_i h
  · simp [h]; rfl
  · simp [h]

theorem clearPulse_eq (s : State) : clearPulse s = issueAll (if s.build.hasClear then clearTrace else []) s := by
  unfold clearPulse; split <;> rfl

theorem showPulse_eq (s : State) : showPulse s = issueAll showTrace s := rfl

theorem setOutputEnabled_eq (b : Bool) (s : State) :
    setOutputEnabled b s = issueAll (if s.build.hasOe then [.set .outputEnable (!b)] else []) s := by
  unfold setOutputEnabled; split <;> rfl

/-! The State-Based Register's bodies. -/

/-- The bytes `FLUSH` reads, index 0 first. -/
def shadowBytes (n : Nat) (s : State) : List Byte :=
  (List.range n).map (shadowByte s)

theorem shadowBytes_eq {n : Nat} {s : State} (h : s.shadow.length = n) : shadowBytes n s = s.shadow := by
  apply List.ext_getElem
  · simp [shadowBytes, h]
  · intro i h1 h2
    simp [shadowBytes, shadowByte, h2]

theorem pushShadowBelow_eq (n : Nat) (s : State) :
    pushShadowBelow n s = issueAll ((shadowBytes n s).reverse.flatMap pushByteTrace) s := by
  induction n generalizing s with
  | zero => rfl
  | succ n ih =>
    have e : shadowBytes n (issueAll (pushByteTrace (shadowByte s n)) s) = shadowBytes n s := by
      simp [shadowBytes, shadowByte]
    rw [pushShadowBelow, pushByte_eq, ih, e, ← issueAll_append]
    simp only [shadowBytes, List.range_succ, List.map_append, List.map_cons, List.map_nil, List.reverse_append,
      List.reverse_cons, List.reverse_nil, List.nil_append, List.flatMap_append, List.flatMap_cons, List.flatMap_nil,
      List.append_nil]

/-- `FLUSH` in any state (R100). -/
theorem flush_any (n : Nat) (s : State) : flush n s = issueAll (flushTrace (shadowBytes n s)) s := by
  rw [flush, pushShadowBelow_eq, showPulse_eq, ← issueAll_append, flushTrace]

/-- `FLUSH` where the buffer has N bytes (R100). -/
theorem flush_eq (n : Nat) (s : State) (h : s.shadow.length = n) : flush n s = issueAll (flushTrace s.shadow) s := by
  rw [flush_any, shadowBytes_eq h]

theorem pushZeroBytes_eq (n : Nat) (s : State) :
    pushZeroBytes n s = issueAll (List.replicate n (pushByteTrace 0)).flatten s := by
  induction n generalizing s with
  | zero => rfl
  | succ n ih => rw [pushZeroBytes, ih, pushByte_eq, ← issueAll_append]; rfl

theorem clearChain_eq (n : Nat) (s : State) :
    clearChain n s =
      issueAll (if s.build.hasClear then clearTrace else (List.replicate n (pushByteTrace 0)).flatten) s := by
  unfold clearChain; split
  · rw [clearPulse_eq]; simp [*]
  · rw [pushZeroBytes_eq]

/-- Zeroing the shadow buffer issues no event, so its place among events cannot be told (D17). -/
theorem zeroShadow_issueAll (n : Nat) (es : List Event) (s : State) :
    zeroShadow n (issueAll es s) = issueAll es (zeroShadow n s) := by
  induction es generalizing s with
  | nil => rfl
  | cons e es ih => rw [issueAll_cons, ih]; rfl

theorem clearRegister_eq (n : Nat) (s : State) :
    clearRegister n s = issueAll (clearRegisterTrace s.build.hasClear n) (zeroShadow n s) := by
  rw [clearRegister, clearChain_eq, zeroShadow_issueAll, flush_eq n _ (by simp), ← issueAll_append, clearRegisterTrace]
  simp

theorem writePin_valid (n : Nat) (pin : Int) (b : Bool) (s : State) (hs : s.shadow.length = n)
    (h : pinInRange n pin = true) :
    writePin n pin b s = issueAll (flushTrace (writeShadowBit pin b s).shadow) (writeShadowBit pin b s) := by
  rw [writePin, if_pos h, flush_eq]; simp [writeShadowBit, hs]

theorem writePin_outOfRange (n : Nat) (pin : Int) (b : Bool) (s : State) (h : pinInRange n pin = false) :
    writePin n pin b s = s := by
  simp [writePin, h]

/-! Which build runs a command. -/

theorem inProtocolBuild_eq {s : State} (h : ProtocolBuild s) (run : State → State) :
    inProtocolBuild s run = .next (run s) := by
  unfold ProtocolBuild at h
  simp [inProtocolBuild, buildLegal, h]

theorem inStatefulBuild_eq {n : Nat} {s : State} (h : StatefulBuild n s) (run : Nat → State → State) :
    inStatefulBuild s run = .next (run n s) := by
  obtain ⟨h, h1, h2⟩ := h
  simp [inStatefulBuild, buildLegal, h, h1, h2]

/-- Everything a Protocol-layer command's guard can do when it answers a next state. -/
theorem inProtocolBuild_next {s t : State} {run : State → State} (h : inProtocolBuild s run = .next t) :
    ProtocolBuild s ∧ t = run s := by
  unfold inProtocolBuild at h
  split at h
  · split at h
    · cases h; exact ⟨‹_›, rfl⟩
    · cases h
  · cases h

/-- Everything a State-Based-Register command's guard can do when it answers a next state. -/
theorem inStatefulBuild_next {s t : State} {run : Nat → State → State} (h : inStatefulBuild s run = .next t) :
    ∃ n, StatefulBuild n s ∧ t = run n s := by
  unfold inStatefulBuild at h
  split at h
  · rename_i hl
    split at h
    · cases h
    · rename_i n hn; cases h
      simp only [buildLegal, hn, Bool.and_eq_true, decide_eq_true_eq] at hl
      exact ⟨n, ⟨hn, hl.1, hl.2⟩, rfl⟩
  · cases h

end Sys2Proof.Machine
end

