-- ==== Sys2Proof/Laws/Reading.lean ====
section
/-! SUPPORT. `READBYTE` as the bits it reads and the list of events that goes with them (R83, R84). -/

namespace Sys2Proof.Machine

/-- The bits that `k` iterations of `READBYTE` read from a state (R83). -/
def readsOf (pushBack : Bool) : Nat → State → List Bool
  | 0, _ => []
  | k + 1, s =>
    (s.build.hasDout && dataOutNow s) ::
      readsOf pushBack k
        (issueAll (readIterationTrace s.build.hasDout pushBack (s.build.hasDout && dataOutNow s)) s)

@[simp] theorem readsOf_length (pb : Bool) (k : Nat) (s : State) : (readsOf pb k s).length = k := by
  induction k generalizing s with
  | zero => rfl
  | succ k ih => simp [readsOf, ih]

/-- One iteration of `READBYTE`: the read, then the push. -/
theorem readIteration_eq (pb : Bool) (s : State) :
    pushBit (pb && (readBit s).1) (readBit s).2 =
      issueAll (readIterationTrace s.build.hasDout pb (readBit s).1) s := by
  rw [readBit_eq, pushBit_eq, ← issueAll_append]; rfl

/-- The bits read, stored from bit `k-1` down (R83). -/
def readValueFrom : Nat → Byte → List Bool → Byte
  | k + 1, v, r :: rs => readValueFrom k (assignBit v k r) rs
  | _, v, _ => v

theorem readBitsBelow_eq (pb : Bool) (k : Nat) (v : Byte) (s : State) :
    readBitsBelow pb k v s = (readValueFrom k v (readsOf pb k s),
      issueAll ((readsOf pb k s).flatMap (readIterationTrace s.build.hasDout pb)) s) := by
  induction k generalizing v s with
  | zero => rfl
  | succ k ih =>
    have e : (readBit s).1 = (s.build.hasDout && dataOutNow s) := by rw [readBit_eq]
    have e' := readIteration_eq pb s
    rw [e] at e'
    simp only [readBitsBelow, ih, readsOf, readValueFrom, e, e', List.flatMap_cons, issueAll_append, issueAll_build]

theorem readValueFrom_eight : ∀ r0 r1 r2 r3 r4 r5 r6 r7 : Bool,
    readValueFrom 8 0 [r0, r1, r2, r3, r4, r5, r6, r7] =
      BitVec.ofNat 8 (readValue [r0, r1, r2, r3, r4, r5, r6, r7]) := by
  decide

theorem readByte_eq (pb : Bool) (s : State) :
    readByte pb s = (BitVec.ofNat 8 (readValue (readsOf pb 8 s)),
      issueAll ((readsOf pb 8 s).flatMap (readIterationTrace s.build.hasDout pb)) s) := by
  rw [readByte, readBitsBelow_eq]
  obtain ⟨rs, h⟩ : ∃ rs, rs = readsOf pb 8 s := ⟨_, rfl⟩
  have hl : rs.length = 8 := by rw [h]; simp
  rw [← h]
  match rs, hl with
  | [r0, r1, r2, r3, r4, r5, r6, r7], _ => rw [readValueFrom_eight]

/-! What the iterations' events do. -/

theorem chainRun_get (b : Build) (d : Dirs) (v : Levels) (r : Bool) (c : Chain)
    (hc : b.hasClear = true → v.clear = true) :
    chainRun b [.get r] d v c = c := by
  simp [chainRun, chainAfter, chainEdge, chainHeld, dirsAfter, levelsAfter, clearLow_eq_false hc]

theorem chainRun_reads (b : Build) (d : Dirs) (hd pb : Bool) (rs : List Bool) (v : Levels) (c : Chain)
    (hk : v.clock = false) (hc : b.hasClear = true → v.clear = true) :
    chainRun b (rs.flatMap (readIterationTrace hd pb)) d v c = pushStages (rs.map (pb && ·)).reverse c := by
  induction rs generalizing v c with
  | nil => simp [chainRun, pushStages_nil]
  | cons r rs ih =>
    rw [List.flatMap_cons, chainRun_append, List.map_cons, List.reverse_cons, ← pushStages_append]
    have e : chainRun b (readIterationTrace hd pb r) d v c = pushStages [pb && r] c := by
      cases hd
      · exact chainRun_pushBit b d v _ c hk hc
      · show chainRun b ([.get r] ++ pushBitTrace (pb && r)) d v c = _
        rw [chainRun_append, chainRun_get b d v r c hc]
        exact chainRun_pushBit b d v _ c hk hc
    have e2 : (readIterationTrace hd pb r).foldl levelsAfter v = { v with data := pb && r, clock := false } := by
      cases hd <;> rfl
    have e3 : (readIterationTrace hd pb r).foldl dirsAfter d = d := by
      cases hd <;> rfl
    rw [e, e2, e3, ih { v with data := pb && r, clock := false } _ rfl hc]

theorem levels_reads (hd pb : Bool) (rs : List Bool) (v : Levels) (h : rs ≠ []) :
    (rs.flatMap (readIterationTrace hd pb)).foldl levelsAfter v = { v with data := pb && rs.getLast h, clock := false } := by
  induction rs generalizing v with
  | nil => exact absurd rfl h
  | cons r rs ih =>
    have e2 : (readIterationTrace hd pb r).foldl levelsAfter v = { v with data := pb && r, clock := false } := by
      cases hd <;> rfl
    rw [List.flatMap_cons, List.foldl_append, e2]
    cases rs with
    | nil => rfl
    | cons y bits => rw [ih _ (by simp)]; simp

theorem dirs_reads (hd pb : Bool) (rs : List Bool) (d : Dirs) :
    (rs.flatMap (readIterationTrace hd pb)).foldl dirsAfter d = d := by
  induction rs with
  | nil => rfl
  | cons x bits ih => rw [List.flatMap_cons, List.foldl_append]; cases hd <;> exact ih

theorem gets_reads (hd pb : Bool) (rs : List Bool) (k : Nat) :
    (rs.flatMap (readIterationTrace hd pb)).foldl getsAfter k = k + (if hd then rs.length else 0) := by
  induction rs generalizing k with
  | nil => cases hd <;> rfl
  | cons x bits ih =>
    rw [List.flatMap_cons, List.foldl_append, ih]
    cases hd <;> simp [readIterationTrace, getsAfter, pushBitTrace]
    omega

end Sys2Proof.Machine
end

