-- ==== Sys2Proof/Laws/Exec.lean ====
section
/-! SUPPORT. What `exec` can do, said once: every command is a list of events, a shadow buffer and a response. -/

namespace Sys2Proof.Machine

/-- The events a command issues from a state (R80 to R87, R101, R104). -/
def commandEvents (i : Instr) (s : State) : List Event :=
  match i with
  | .pushBit b => pushBitTrace b
  | .pushByte v => pushByteTrace v
  | .readBit => if s.build.hasDout then [.get (dataOutNow s)] else []
  | .readByte pb => (readsOf pb 8 s).flatMap (readIterationTrace s.build.hasDout pb)
  | .clear => if s.build.hasClear then clearTrace else []
  | .showOut => showTrace
  | .setOe b => if s.build.hasOe then [.set .outputEnable (!b)] else []
  | .sClear => clearRegisterTrace s.build.hasClear (buildBytes s.build)
  | .sWrite pin b => if pinInRange (buildBytes s.build) pin then flushTrace (shadowBytes (buildBytes s.build) (writeShadowBit pin b s)) else []

/-- The shadow buffer a command leaves (R101, R104). -/
def commandShadow (i : Instr) (s : State) : List Byte :=
  match i with
  | .sClear => List.replicate (buildBytes s.build) 0
  | .sWrite pin b => if pinInRange (buildBytes s.build) pin then (writeShadowBit pin b s).shadow else s.shadow
  | _ => s.shadow

/-- The responses a command gives (R69). -/
def commandResponses (i : Instr) (s : State) : List Byte :=
  match i with
  | .readBit => [zext8 (s.build.hasDout && dataOutNow s)]
  | .readByte pb => [BitVec.ofNat 8 (readValue (readsOf pb 8 s))]
  | _ => []

theorem issueAll_set (es : List Event) (s : State) (sh rs : List Byte) :
    issueAll es { s with shadow := sh, responses := rs } = { issueAll es s with shadow := sh, responses := rs } := by
  rw [issueAll_eq, issueAll_eq]

/-- Everything `exec` can do when it answers a next state: the command is of the build's layer, and the state is the one its
events, its write of the shadow buffer and its response make. -/
theorem exec_next (i : Instr) (s t : State) (h : exec i s = .next t) :
    i.layer = layerName s.build.layer ∧ buildLegal s.build = true ∧
    t = issueAll (commandEvents i s)
      { s with shadow := commandShadow i s, responses := s.responses ++ commandResponses i s } := by
  have N : ∀ es, issueAll es { s with shadow := s.shadow, responses := s.responses ++ [] } = issueAll es s := by
    intro es; rw [List.append_nil]
  have lp : ProtocolBuild s → LayerName.protocol = layerName s.build.layer ∧ buildLegal s.build = true := by
    intro h; rw [ProtocolBuild] at h; simp [h, layerName, buildLegal]
  have ls : ∀ n, StatefulBuild n s →
      LayerName.stateful = layerName s.build.layer ∧ buildLegal s.build = true ∧ buildBytes s.build = n := by
    intro n h; simp [h.1, layerName, buildLegal, buildBytes, h.2]
  cases i with
  | pushBit b =>
    obtain ⟨hp, rfl⟩ := inProtocolBuild_next h
    exact ⟨(lp hp).1, (lp hp).2, by simp only [commandEvents, commandShadow, commandResponses, N, pushBit_eq]⟩
  | pushByte b =>
    obtain ⟨hp, rfl⟩ := inProtocolBuild_next h
    exact ⟨(lp hp).1, (lp hp).2, by simp only [commandEvents, commandShadow, commandResponses, N, pushByte_eq]⟩
  | readBit =>
    obtain ⟨hp, rfl⟩ := inProtocolBuild_next (run := fun s => respond (zext8 (readBit s).1) (readBit s).2) h
    refine ⟨(lp hp).1, (lp hp).2, ?_⟩
    simp only [commandEvents, commandShadow, commandResponses, issueAll_set, readBit_eq, respond, issueAll_responses]
    cases hd : s.build.hasDout <;> simp [issueAll_eq]
  | readByte pb =>
    obtain ⟨hp, rfl⟩ := inProtocolBuild_next (run := fun s => respond (readByte pb s).1 (readByte pb s).2) h
    refine ⟨(lp hp).1, (lp hp).2, ?_⟩
    simp only [commandEvents, commandShadow, commandResponses, issueAll_set, readByte_eq, respond, issueAll_responses]
    simp [issueAll_eq]
  | clear =>
    obtain ⟨hp, rfl⟩ := inProtocolBuild_next h
    exact ⟨(lp hp).1, (lp hp).2, by simp only [commandEvents, commandShadow, commandResponses, N, clearPulse_eq]⟩
  | showOut =>
    obtain ⟨hp, rfl⟩ := inProtocolBuild_next h
    exact ⟨(lp hp).1, (lp hp).2, by simp only [commandEvents, commandShadow, commandResponses, N, showPulse_eq]⟩
  | setOe b =>
    obtain ⟨hp, rfl⟩ := inProtocolBuild_next h
    exact ⟨(lp hp).1, (lp hp).2, by simp only [commandEvents, commandShadow, commandResponses, N, setOutputEnabled_eq]⟩
  | sClear =>
    obtain ⟨n, hp, rfl⟩ := inStatefulBuild_next h
    obtain ⟨l1, l2, l3⟩ := ls n hp
    refine ⟨l1, l2, ?_⟩
    simp only [commandEvents, commandShadow, commandResponses, l3, List.append_nil, clearRegister_eq]; rfl
  | sWrite pin b =>
    obtain ⟨n, hp, rfl⟩ := inStatefulBuild_next (run := fun n s => writePin n pin b s) h
    obtain ⟨l1, l2, l3⟩ := ls n hp
    refine ⟨l1, l2, ?_⟩
    simp only [commandEvents, commandShadow, commandResponses, l3, List.append_nil]
    cases hr : pinInRange n pin
    · rw [writePin_outOfRange _ _ _ _ hr]; rfl
    · rw [writePin, if_pos hr, flush_any]; rfl

/-- Everything `step` can do when it answers a next state: nothing, a whole reset, or one command. -/
theorem step_next (s t : State) (h : step s = .next t) :
    buildLegal s.build = true ∧
      ((s.host = [] ∧ t = s) ∨
       (∃ rest, s.host = .reset :: rest ∧ t = releaseReset { s with host := rest }) ∨
       (∃ w rest i, s.host = .command w :: rest ∧ decode w = .command i ∧ exec i { s with host := rest } = .next t)) := by
  unfold step at h
  split at h
  · refine ⟨‹_›, ?_⟩
    unfold presented takeInput at h
    match hh : s.host with
    | [] => rw [hh] at h; cases h; exact .inl ⟨rfl, rfl⟩
    | .reset :: rest => simp only [hh] at h; cases h; exact .inr (.inl ⟨rest, rfl, rfl⟩)
    | .command w :: rest =>
      simp only [hh] at h
      cases hd : decode w with
      | command i => rw [hd] at h; exact .inr (.inr ⟨w, rest, i, rfl, hd, h⟩)
      | illegal why => rw [hd] at h; cases h
  · cases h

end Sys2Proof.Machine
end

