-- ==== Sys2Proof/Laws/PerInstr.lean ====
section
/-! SUPPORT. What holds of every command's word, instruction by instruction. -/

/-- The word of a command has its reserved bits zero and an opcode of the map, 0x1 to 0x9 (R61, R63, R65 (a) and (b)). -/
def Sys2Proof.Laws.Reserved.Statement (i : Sys2Proof.Instr) : Prop :=
  Sys2Proof.rsvField (Sys2Proof.encode i) = 0 ∧
  0x1 ≤ (Sys2Proof.opField (Sys2Proof.encode i)).toNat ∧ (Sys2Proof.opField (Sys2Proof.encode i)).toNat ≤ 0x9

open Sys2Proof

theorem Sys2Proof.Laws.Reserved.pushBit (bit : Bool) : Sys2Proof.Laws.Reserved.Statement (.pushBit bit) := by
  simp [Sys2Proof.Laws.Reserved.Statement, encode]

theorem Sys2Proof.Laws.Reserved.pushByte (byte : Byte) : Sys2Proof.Laws.Reserved.Statement (.pushByte byte) := by
  simp [Sys2Proof.Laws.Reserved.Statement, encode]

theorem Sys2Proof.Laws.Reserved.readBit : Sys2Proof.Laws.Reserved.Statement .readBit := by
  simp [Sys2Proof.Laws.Reserved.Statement, encode]

theorem Sys2Proof.Laws.Reserved.readByte (pushBack : Bool) : Sys2Proof.Laws.Reserved.Statement (.readByte pushBack) := by
  simp [Sys2Proof.Laws.Reserved.Statement, encode]

theorem Sys2Proof.Laws.Reserved.clear : Sys2Proof.Laws.Reserved.Statement .clear := by
  simp [Sys2Proof.Laws.Reserved.Statement, encode]

theorem Sys2Proof.Laws.Reserved.showOut : Sys2Proof.Laws.Reserved.Statement .showOut := by
  simp [Sys2Proof.Laws.Reserved.Statement, encode]

theorem Sys2Proof.Laws.Reserved.setOe (enabled : Bool) : Sys2Proof.Laws.Reserved.Statement (.setOe enabled) := by
  simp [Sys2Proof.Laws.Reserved.Statement, encode]

theorem Sys2Proof.Laws.Reserved.sClear : Sys2Proof.Laws.Reserved.Statement .sClear := by
  simp [Sys2Proof.Laws.Reserved.Statement, encode]

theorem Sys2Proof.Laws.Reserved.sWrite (pin : Int) (bit : Bool) :
    Sys2Proof.Laws.Reserved.Statement (.sWrite pin bit) := by
  simp [Sys2Proof.Laws.Reserved.Statement, encode]
end

