-- ==== Sys2Proof/Laws/Reset.lean ====
section
/-! SUPPORT. The whole reset as a list of events (R140, R141). -/

namespace Sys2Proof.Machine

/-- The events of `P_RESET`, in the order of decision D10 (R140). -/
def protocolResetEvents (b : Build) : List Event :=
  [.cfg .data .output, .cfg .clock .output, .cfg .latch .output] ++
  whenPresent b.hasClear (.cfg .clear .output) ++
  whenPresent b.hasDout (.cfg .dataOut .input) ++
  whenPresent b.hasOe (.cfg .outputEnable .output) ++
  whenPresent b.hasClear (.set .clear true) ++
  whenPresent b.hasOe (.set .outputEnable false)

/-- The events of the whole reset of a build (R140, R141). -/
def resetEvents (b : Build) : List Event :=
  protocolResetEvents b ++
  match b.layer with
  | .protocol => []
  | .stateful n => clearRegisterTrace b.hasClear n

/-- The shadow buffer after reset (R33). -/
def resetShadow (s : State) : List Byte :=
  match s.build.layer with
  | .protocol => s.shadow
  | .stateful n => List.replicate n 0

theorem protocolReset_eq (s : State) : protocolReset s = issueAll (protocolResetEvents s.build) s := rfl

/-- Everything the reset sequence does, as events. -/
theorem releaseReset_eq (s : State) :
    releaseReset s = issueAll (resetEvents s.build) (assertReset { s with shadow := resetShadow s }) := by
  unfold releaseReset resetEvents resetShadow
  cases s.build.layer with
  | protocol =>
    change protocolReset (assertReset s) = issueAll (protocolResetEvents s.build ++ []) (assertReset s)
    rw [List.append_nil, protocolReset_eq]; rfl
  | stateful n =>
    change registerReset n (protocolReset (assertReset s)) = issueAll (protocolResetEvents s.build ++ _) _
    rw [registerReset, clearRegister_eq, issueAll_append, protocolReset_eq, zeroShadow_issueAll, zeroShadow_issueAll]
    simp only [issueAll_build, zeroShadow_build]; rfl

/-- The directions after `P_RESET` are those of R33, from any levels. -/
theorem protocolReset_dirs (b : Build) : (protocolResetEvents b).foldl dirsAfter dirsUnconfigured = resetDirs b := by
  obtain ⟨layer, c, d, o⟩ := b
  cases c <;> cases d <;> cases o <;> rfl

/-- The levels after `P_RESET` are those of R33. -/
theorem protocolReset_levels (b : Build) : (protocolResetEvents b).foldl levelsAfter levelsLow = resetLevels b := by
  obtain ⟨layer, c, d, o⟩ := b
  cases c <;> cases d <;> cases o <;> rfl

theorem protocolReset_gets (b : Build) (k : Nat) : (protocolResetEvents b).foldl getsAfter k = k := by
  obtain ⟨layer, c, d, o⟩ := b
  cases c <;> cases d <;> cases o <;> rfl

end Sys2Proof.Machine
end

