-- ==== Sys2Proof/Tests/Slice0.lean ====
section
/-! SUPPORT. The model's own tests, each about one word or one step, with the expected results of 95_test_vectors.md (V, P) or
of the rule named; and, for every statement with hypotheses, a state and operands that meet them. -/

namespace Sys2Proof.Tests

open Sys2Proof Sys2Proof.Machine

/-! Small states: the machine at a command boundary with nothing recorded. -/

/-- A build with all optional lines, or with none. -/
def buildOf (l : Layer) (lines : Bool) : Build :=
  { layer := l, hasClear := lines, hasDout := lines, hasOe := lines }

/-- The machine at a command boundary (R33), with a shadow buffer and a chain. -/
def ready (b : Build) (shadow : List Byte) (c : Option Chain) : State :=
  { State.powerOn b c with shadow := shadow, dir := resetDirs b, lvl := resetLevels b }

/-- Bits of a stage list as 95_test_vectors.md writes them, stage 1 first. -/
def stages (bits : List Nat) : List Bool := bits.map (· == 1)

/-- A `PROTOCOL` build with all lines. -/
def protocolAll (sr st : List Nat) : State :=
  ready (buildOf .protocol true) [] (some ⟨stages sr, stages st⟩)

/-- A bare `PROTOCOL` build. -/
def protocolBare (sr st : List Nat) : State :=
  ready (buildOf .protocol false) [] (some ⟨stages sr, stages st⟩)

/-- A `STATEFUL` build with all lines or none, on a chain that holds its shadow buffer. -/
def stateful (n : Nat) (lines : Bool) (shadow : List Byte) : State :=
  ready (buildOf (.stateful n) lines) shadow (some ⟨orderedBits shadow, orderedBits shadow⟩)

/-- The eight stages that hold 0xA5 and those that hold 0. -/
def a5 : List Nat := [1, 0, 1, 0, 0, 1, 0, 1]
def zeros8 : List Nat := [0, 0, 0, 0, 0, 0, 0, 0]

/-- The next state, if there is one. -/
def nextOf : Host.Outcome State Fault Refusal → Option State
  | .next t => some t
  | .fault _ => none
  | .refused _ => none

/-- The reason of a refusal, if there is one. -/
def refusalOf : Host.Outcome State Fault Refusal → Option Refusal
  | .next _ => none
  | .fault _ => none
  | .refused r => some r

/-- The state one step after a word is presented. -/
def after (w : Word) (s : State) : Option State := nextOf (step (presentWord w s))

/-! ## Well-formedness: the one check, and the terms it refuses -/

theorem test_wellFormed_refuses_pin_too_large : (Instr.sWrite 32768 true).wellFormed = false := by decide
theorem test_wellFormed_refuses_pin_too_small : (Instr.sWrite (-32769) false).wellFormed = false := by decide
theorem test_wellFormed_takes_the_range :
    (Instr.sWrite 32767 true).wellFormed = true ∧ (Instr.sWrite (-32768) true).wellFormed = true := by decide

/-! ## Decoding: one word per command, its fields `op rsv f arg` written out (R61 to R63) -/

theorem test_decode_pushBit :
    decode 0b0001_00000000000_1_0000000000000000 = .command (.pushBit true) := by decide
theorem test_decode_pushByte :
    decode 0b0010_00000000000_0_0000000010100101 = .command (.pushByte 0xA5) := by decide
theorem test_decode_readBit :
    decode 0b0011_00000000000_0_0000000000000000 = .command .readBit := by decide
theorem test_decode_readByte :
    decode 0b0100_00000000000_1_0000000000000000 = .command (.readByte true) := by decide
theorem test_decode_clear :
    decode 0b0101_00000000000_0_0000000000000000 = .command .clear := by decide
theorem test_decode_show :
    decode 0b0110_00000000000_0_0000000000000000 = .command .showOut := by decide
theorem test_decode_setOe :
    decode 0b0111_00000000000_1_0000000000000000 = .command (.setOe true) := by decide
theorem test_decode_sClear :
    decode 0b1000_00000000000_0_0000000000000000 = .command .sClear := by decide
theorem test_decode_sWrite :
    decode 0b1001_00000000000_1_0000000000001111 = .command (.sWrite 15 true) ∧
    decode 0b1001_00000000000_0_1000000000000000 = .command (.sWrite (-32768) false) := by decide

/-- R65: one word for each of (a) to (e); for (b) both ends of the reserved field. -/
theorem test_decode_illegal :
    decode 0b0000_00000000000_0_0000000000000000 = .illegal .reservedOpcode ∧
    decode 0b1010_00000000000_0_0000000000000000 = .illegal .reservedOpcode ∧
    decode 0b0110_00000000001_0_0000000000000000 = .illegal .reservedBits ∧
    decode 0b0110_10000000000_0_0000000000000000 = .illegal .reservedBits ∧
    decode 0b1000_00000000000_1_0000000000000000 = .illegal .booleanSet ∧
    decode 0b0111_00000000000_1_1000000000000000 = .illegal .argumentSet ∧
    decode 0b0010_00000000000_0_0000000100000000 = .illegal .argumentSet := by decide

/-- The words of programs P1 to P3. -/
theorem test_encode :
    [Instr.pushBit true, .pushByte 0xA5, .readBit, .readByte true, .clear, .showOut, .setOe true, .sClear, .sWrite 15 true,
      .sWrite (-1) true].map encode =
    [0x10010000, 0x200000A5, 0x30000000, 0x40010000, 0x50000000, 0x60000000, 0x70010000, 0x80000000, 0x9001000F,
      0x9001FFFF] := by decide

/-! ## The Protocol layer -/

/-- V1. -/
theorem test_pushBit_shifts :
    (after 0x10010000 (protocolAll zeros8 zeros8)).map (fun t => (t.trace, t.chain.map Chain.sr, t.lvl.data)) =
      some ([.set .data true, .set .clock true, .delay 5, .set .clock false], some (stages [1, 0, 0, 0, 0, 0, 0, 0]),
        true) := by decide

/-- V2: the level is issued again although it does not change. -/
theorem test_pushBit_same_level :
    (after 0x10000000 (protocolAll [1, 0, 0, 0, 0, 0, 0, 0] zeros8)).map (fun t => (t.trace, t.chain.map Chain.sr)) =
      some ([.set .data false, .set .clock true, .delay 5, .set .clock false],
        some (stages [0, 1, 0, 0, 0, 0, 0, 0])) := by decide

/-- V3: the data bits in wire order, and where they end. -/
theorem test_pushByte_order :
    (after 0x200000A5 (protocolAll [0, 1, 1, 0, 1, 0, 0, 1] zeros8)).map
        (fun t => (dataBits t.trace, t.trace.length, t.chain, t.lvl.data)) =
      some (stages [1, 0, 1, 0, 0, 1, 0, 1], 32, some ⟨stages a5, stages zeros8⟩, true) := by decide

/-- V6: bit 7 ends in the last stage. -/
theorem test_pushByte_bit7_last :
    (after 0x20000080 (protocolAll a5 zeros8)).map (fun t => t.chain.map Chain.sr) =
      some (some (stages [0, 0, 0, 0, 0, 0, 0, 1])) := by decide

/-- V7. -/
theorem test_readBit_samples :
    (after 0x30000000 (protocolAll a5 zeros8)).map (fun t => (t.trace, t.responses, t.chain.map Chain.sr)) =
      some ([.get true], [0x01], some (stages a5)) := by decide

/-- V12. -/
theorem test_readBit_absent :
    (after 0x30000000 (protocolBare a5 zeros8)).map (fun t => (t.trace, t.responses, t.chain.map Chain.sr)) =
      some ([], [0x00], some (stages a5)) := by decide

/-- V8. -/
theorem test_readByte_pushBack :
    (after 0x40010000 (protocolAll a5 zeros8)).map (fun t => (t.trace.length, t.responses, t.chain.map Chain.sr)) =
      some (40, [0xA5], some (stages a5)) := by decide

/-- V11: no `dataOut` line, the content is destroyed although `pb` is 1. -/
theorem test_readByte_absent :
    (after 0x40010000 (protocolBare [1, 1, 0, 0, 1, 0, 1, 0] zeros8)).map
        (fun t => (t.trace.length, t.responses, t.chain.map Chain.sr)) =
      some (32, [0x00], some (stages zeros8)) := by decide

/-- V13. -/
theorem test_clear_zeroes_shift_stages :
    (after 0x50000000 (protocolAll [0, 0, 1, 1, 1, 1, 0, 0] a5)).map (fun t => (t.trace, t.chain)) =
      some ([.set .clear false, .delay 5, .set .clear true], some ⟨stages zeros8, stages a5⟩) := by decide

/-- V14. -/
theorem test_clear_absent :
    (after 0x50000000 (protocolBare [0, 0, 1, 1, 1, 1, 0, 0] a5)).map (fun t => (t.trace, t.chain)) =
      some ([], some ⟨stages [0, 0, 1, 1, 1, 1, 0, 0], stages a5⟩) := by decide

/-- V15. -/
theorem test_show_transfers :
    (after 0x60000000 (protocolAll a5 [0, 1, 1, 0, 1, 0, 0, 1])).map (fun t => (t.trace, t.chain)) =
      some ([.set .latch true, .delay 5, .set .latch false], some ⟨stages a5, stages a5⟩) := by decide

/-- V16: `SETOE 0` drives the line high, and the outputs are disabled. -/
theorem test_setOe_disables :
    (after 0x70000000 (protocolAll a5 a5)).map (fun t => (t.trace, t.lvl.outputEnable, chainOutputs t)) =
      some ([.set .outputEnable true], true, none) := by decide

/-- V16, bare build. -/
theorem test_setOe_absent :
    (after 0x70000000 (protocolBare a5 a5)).map (fun t => (t.trace, t.lvl.outputEnable, chainOutputs t)) =
      some ([], false, some (stages a5)) := by decide

/-! ## The State-Based Register -/

/-- V25. -/
theorem test_sClear_hardware :
    (after 0x80000000 (stateful 2 true [0x01, 0x80])).map (fun t => (t.trace.length, t.shadow, t.chain)) =
      some (70, [0x00, 0x00], some ⟨List.replicate 16 false, List.replicate 16 false⟩) := by decide +kernel

/-- V26: the flood, then the flush. -/
theorem test_sClear_flood :
    (after 0x80000000 (stateful 1 false [0x80])).map (fun t => (t.trace.length, t.shadow, t.chain)) =
      some (67, [0x00], some ⟨stages zeros8, stages zeros8⟩) := by decide +kernel

/-- V23: index 8 is bit 0 of byte 1; byte 1 goes out first. -/
theorem test_sWrite_second_byte :
    (after 0x90010008 (stateful 2 true [0x00, 0x00])).map (fun t => (dataBits t.trace, t.shadow, t.chain.map Chain.st)) =
      some (stages [0, 0, 0, 0, 0, 0, 0, 1, 0, 0, 0, 0, 0, 0, 0, 0], [0x00, 0x01],
        some (stages [0, 0, 0, 0, 0, 0, 0, 0, 1, 0, 0, 0, 0, 0, 0, 0])) := by decide +kernel

/-- V17: the first index out of range changes nothing. -/
theorem test_sWrite_out_of_range :
    after 0x90010010 (stateful 2 true [0x01, 0x80]) = some (stateful 2 true [0x01, 0x80]) := by decide

/-! ## Reset, the port and the refusals -/

/-- The reset table: `PROTOCOL`, all lines. -/
theorem test_reset_protocol :
    (releaseReset (State.powerOn (buildOf .protocol true) none)).trace =
      [.cfg .data .output, .cfg .clock .output, .cfg .latch .output, .cfg .clear .output, .cfg .dataOut .input,
       .cfg .outputEnable .output, .set .clear true, .set .outputEnable false] := by decide

/-- The reset table: `STATEFUL`, N = 1, bare, from the power-on content of P3. -/
theorem test_reset_stateful :
    let t := releaseReset (State.powerOn (buildOf (.stateful 1) false)
      (some ⟨stages [1, 1, 1, 1, 1, 1, 1, 1], stages [1, 0, 1, 0, 1, 0, 1, 0]⟩))
    (t.trace.length, t.shadow, t.chain) = (70, [0x00], some ⟨stages zeros8, stages zeros8⟩) := by decide +kernel

/-- `State.reset` is what its build's reset sequence leaves, from the power-on content of P2. -/
theorem test_reset_state :
    State.reset = releaseReset (State.powerOn State.reset.build (some
      ⟨stages [0, 0, 1, 0, 1, 1, 1, 1, 0, 0, 1, 0, 1, 1, 0, 1], stages [1, 0, 0, 1, 0, 0, 0, 0, 1, 0, 1, 0, 0, 1, 1, 0]⟩)) := by
  decide +kernel

/-- Every row's word runs as the first instruction after reset. -/
theorem test_first_instruction :
    [0x10010000, 0x200000A5, 0x30000000, 0x40010000, 0x50000000, 0x60000000, 0x70010000, 0x80000000, 0x9001000F].map
      (fun w => (nextOf (step (State.reset.withFetchWord 32 w))).isSome) = List.replicate 9 true := by decide +kernel

/-- V27, and a word that is no command (R67). -/
theorem test_refusals :
    refusalOf (step (presentWord 0x200000A5 (stateful 1 true [0]))) = some .otherLayer ∧
    refusalOf (step (presentWord 0x90010000 (protocolAll a5 a5))) = some .otherLayer ∧
    refusalOf (step (presentWord 0x60020000 (protocolAll a5 a5))) = some (.illegalWord .reservedBits) ∧
    refusalOf (step (stateful 0 true [])) = some .illegalBuild ∧
    refusalOf (step (stateful 4096 true [])) = some .illegalBuild := by decide

/-! ## Witnesses: states and operands that meet the hypotheses of each statement -/

/-- A `PROTOCOL` build with nothing assumed of its environment. -/
def oracle : State := ready (buildOf .protocol true) [] none

/-- A `PROTOCOL` build whose clock is high, which no run reaches. -/
def clockHigh : State :=
  { protocolAll a5 a5 with lvl := { data := true, clock := true, latch := true, clear := true, outputEnable := false } }

/-- A `PROTOCOL` build whose clear line is low, which no command boundary after reset shows. -/
def clearIsLow : State :=
  { protocolAll a5 a5 with lvl := { data := true, clock := false, latch := false, clear := false, outputEnable := false } }

theorem witness_DecodeOfEncode :
    (Instr.pushByte 0xFF).wellFormed = true ∧ (Instr.sWrite 32767 true).wellFormed = true ∧
    (Instr.sWrite (-32768) false).wellFormed = true := by decide

theorem witness_EncodeOfDecode :
    decode 0x2000_00FF = .command (.pushByte 0xFF) ∧ decode 0x9000_8000 = .command (.sWrite (-32768) false) := by decide

/-- The first clause at a row of each layer; a word outside every row; two rows, which no word hits together. -/
theorem witness_DecoderFollowsOpcodeMap_rows :
    (⟨"PUSHBYTE", .protocol, 0x20000000, 0xFFFFFF00⟩ : OpcodeRow) ∈ opcodeRows ∧
    (⟨"PUSHBYTE", .protocol, 0x20000000, 0xFFFFFF00⟩ : OpcodeRow).hits 0x200000FF = true ∧
    (⟨"PUSHBYTE", .protocol, 0x20000000, 0xFFFFFF00⟩ : OpcodeRow).hits 0x20000100 = false ∧
    (⟨"SWRITE", .stateful, 0x90000000, 0xFFFE0000⟩ : OpcodeRow) ∈ opcodeRows ∧
    (⟨"SWRITE", .stateful, 0x90000000, 0xFFFE0000⟩ : OpcodeRow).hits 0x9001FFFF = true := by decide

theorem witness_DecoderFollowsOpcodeMap_operands :
    decode 0x10010000 = .command (.pushBit true) ∧ decode 0x20000080 = .command (.pushByte 0x80) ∧
    decode 0x40000000 = .command (.readByte false) ∧ decode 0x70010000 = .command (.setOe true) ∧
    decode 0x90017FFF = .command (.sWrite 32767 true) ∧ decode 0x90008000 = .command (.sWrite (-32768) false) := by decide

/-- A legal word and, for each of R65 (a) to (f), an illegal one. -/
theorem witness_IllegalWordsAreTheRefusedOnes :
    (buildLegal (protocolAll a5 a5).build = true ∧
      (presentWord 0x30000000 (protocolAll a5 a5)).host = .command 0x30000000 :: []) ∧
    (∀ p ∈ [((0x10010000 : Word), LayerName.protocol), (0x70010000, .protocol), (0x80000000, .stateful),
        (0x9001FFFF, .stateful)], ¬ WordIsIllegal p.1 p.2) ∧
    (∀ p ∈ [((0x00000000 : Word), LayerName.protocol), (0xA0000000, .stateful), (0x60020000, .protocol),
        (0x98000000, .stateful), (0x20010000, .protocol), (0x30000001, .protocol), (0x20000100, .protocol),
        (0x70000000, .stateful), (0x80000000, .protocol)], WordIsIllegal p.1 p.2) := by
  refine ⟨by decide, ?_, ?_⟩ <;> unfold WordIsIllegal <;> decide

theorem witness_StepRunsPresentedCommand :
    buildLegal (stateful 2 true [0, 0]).build = true ∧
    (presentWord 0x9001000F (stateful 2 true [0, 0])).host = .command 0x9001000F :: [] ∧
    decode 0x9001000F = .command (.sWrite 15 true) := by decide

theorem witness_IdleStepChangesNothing : buildLegal State.reset.build = true ∧ State.reset.host = [] := by decide

/-- Both clauses in both builds, `N` at both ends of its range. -/
theorem witness_LayerLegality :
    buildLegal (stateful 1 true [0]).build = true ∧ buildLegal (stateful 4095 true []).build = true ∧
    Instr.sClear.layer = layerName (stateful 1 true [0]).build.layer ∧
    (Instr.setOe true).layer ≠ layerName (stateful 1 true [0]).build.layer ∧
    buildLegal (protocolAll a5 a5).build = true ∧
    (Instr.setOe true).layer = layerName (protocolAll a5 a5).build.layer ∧
    Instr.sClear.layer ≠ layerName (protocolAll a5 a5).build.layer := by decide

theorem witness_IllegalBuildIsRefused :
    (stateful 0 true []).build.layer = .stateful 0 ∧ (stateful 4096 true []).build.layer = .stateful 4096 ∧
    4095 < 4096 := by decide

/-- Idle, reset, a legal word in each layer, and a word that stops the machine. -/
theorem witness_OnlyIllegalWordsStop :
    (buildLegal State.reset.build = true ∧ State.reset.host = []) ∧
    ({ State.reset with host := [.reset] } : State).host = .reset :: [] ∧
    ((presentWord 0x90008000 State.reset).host = .command 0x90008000 :: [] ∧
      decode 0x90008000 = .command (.sWrite (-32768) false) ∧
      (Instr.sWrite (-32768) false).layer = layerName State.reset.build.layer) ∧
    (buildLegal (protocolAll a5 a5).build = true ∧
      (presentWord 0x40010000 (protocolAll a5 a5)).host = .command 0x40010000 :: [] ∧
      decode 0x40010000 = .command (.readByte true) ∧
      (Instr.readByte true).layer = layerName (protocolAll a5 a5).build.layer) ∧
    (∀ t, step (presentWord 0xA0000000 State.reset) ≠ .next t) := by
  refine ⟨by decide, rfl, by decide, by decide, fun t h => ?_⟩
  have hn : nextOf (step (presentWord 0xA0000000 State.reset)) = none := by decide
  rw [h] at hn
  cases hn

theorem witness_EveryCommandCompletes :
    buildLegal oracle.build = true ∧ (Instr.readByte true).layer = layerName oracle.build.layer ∧
    buildLegal State.reset.build = true ∧ (Instr.sWrite (-1) true).layer = layerName State.reset.build.layer := by decide

/-- Both clauses: a quiescent state, and one with the clock high and `clear` inactive. -/
theorem witness_PushBitShiftsOneBit :
    ProtocolBuild (protocolAll a5 zeros8) ∧ Quiescent (protocolAll a5 zeros8) ∧
    ProtocolBuild clockHigh ∧ clockHigh.lvl.clock = true ∧
    clearLow clockHigh.build clockHigh.dir clockHigh.lvl = false := by decide

theorem witness_PushByteShiftsMostSignificantFirst :
    ProtocolBuild (protocolBare a5 zeros8) ∧ Quiescent (protocolBare a5 zeros8) := by decide

/-- Both clauses. -/
theorem witness_ReadBitSamplesOnce :
    ProtocolBuild (protocolAll a5 zeros8) ∧ (protocolAll a5 zeros8).build.hasDout = true ∧
    Quiescent (protocolAll a5 zeros8) ∧
    ProtocolBuild (protocolBare a5 zeros8) ∧ (protocolBare a5 zeros8).build.hasDout = false := by decide

/-- Both clauses, the first also at the narrowest chain, W = 1. -/
theorem witness_SampleIsLastStage :
    stages [1] ≠ [] ∧ (protocolAll [1] [0]).chain = some ⟨stages [1], stages [0]⟩ ∧ oracle.chain = none := by decide

theorem witness_ReadByteReadsThenPushes :
    ProtocolBuild (protocolAll a5 zeros8) ∧ Quiescent (protocolAll a5 zeros8) ∧
    ProtocolBuild (protocolBare a5 zeros8) ∧ (protocolBare a5 zeros8).build.hasDout = false := by decide

theorem witness_ReadByteTakesWhatEnvironmentPresents :
    ProtocolBuild oracle ∧ oracle.build.hasDout = true ∧ oracle.chain = none := by decide

/-- The narrowest chain, and one wider than a byte. -/
theorem witness_ReadByteReadsLastStages :
    ProtocolBuild (protocolAll [1] [0]) ∧ (protocolAll [1] [0]).build.hasDout = true ∧ Quiescent (protocolAll [1] [0]) ∧
    (protocolAll [1] [0]).chain = some ⟨stages [1], stages [0]⟩ ∧ 1 ≤ (stages [1]).length ∧
    ProtocolBuild (protocolAll (a5 ++ [1]) (a5 ++ [0])) ∧ (protocolAll (a5 ++ [1]) (a5 ++ [0])).build.hasDout = true ∧
    Quiescent (protocolAll (a5 ++ [1]) (a5 ++ [0])) ∧
    (protocolAll (a5 ++ [1]) (a5 ++ [0])).chain = some ⟨stages (a5 ++ [1]), stages (a5 ++ [0])⟩ ∧
    1 ≤ (stages (a5 ++ [1])).length := by decide

/-- Both clauses. -/
theorem witness_ClearZeroesShiftStagesOnly :
    ProtocolBuild (protocolAll a5 a5) ∧ (protocolAll a5 a5).build.hasClear = true ∧ DirsConfigured (protocolAll a5 a5) ∧
    ProtocolBuild (protocolBare a5 a5) ∧ (protocolBare a5 a5).build.hasClear = false := by decide

theorem witness_ShowTransfersAllStages :
    ProtocolBuild (protocolAll a5 zeros8) ∧ Quiescent (protocolAll a5 zeros8) := by decide

/-- Both clauses. -/
theorem witness_SetOeDrivesTheNegation :
    ProtocolBuild (protocolAll a5 a5) ∧ DirsConfigured (protocolAll a5 a5) ∧ Quiescent (protocolAll a5 a5) ∧
    (protocolAll a5 a5).build.hasOe = true ∧
    ProtocolBuild (protocolBare a5 a5) ∧ DirsConfigured (protocolBare a5 a5) ∧ Quiescent (protocolBare a5 a5) ∧
    (protocolBare a5 a5).build.hasOe = false := by decide

/-- The three cases: no `dataOut` line; a command that samples nothing, from a very different state; an unknown environment. -/
theorem witness_TraceDependsOnOperandAndLines :
    (Instr.readByte true).layer = .protocol ∧ ProtocolBuild (protocolBare a5 a5) ∧ ProtocolBuild (protocolBare zeros8 a5) ∧
    (protocolBare a5 a5).build = (protocolBare zeros8 a5).build ∧ (protocolBare a5 a5).build.hasDout = false ∧
    (Instr.pushByte 0xA5).layer = .protocol ∧ ProtocolBuild (protocolAll a5 a5) ∧ ProtocolBuild clockHigh ∧
    (protocolAll a5 a5).build = clockHigh.build ∧ (∀ pb, Instr.pushByte 0xA5 ≠ .readBit ∧
      Instr.pushByte 0xA5 ≠ .readByte pb) ∧
    Instr.readBit.layer = .protocol ∧ ProtocolBuild oracle ∧ oracle.chain = none ∧ oracle.gets = oracle.gets := by decide

theorem witness_PeekLaw :
    ProtocolBuild (protocolAll zeros8 a5) ∧ (protocolAll zeros8 a5).build.hasDout = true ∧
    Quiescent (protocolAll zeros8 a5) ∧ (protocolAll zeros8 a5).chain = some ⟨stages zeros8, stages a5⟩ ∧
    (stages zeros8).length = 8 := by decide

/-- A chain of eight stages, a longer one, and a cleared one. -/
theorem witness_DrainLaw :
    ProtocolBuild (protocolAll a5 a5) ∧ (protocolAll a5 a5).build.hasDout = true ∧ Quiescent (protocolAll a5 a5) ∧
    (protocolAll a5 a5).chain = some ⟨[] ++ bitsLsbFirst 0xA5, stages a5⟩ ∧
    ProtocolBuild (protocolAll (1 :: a5) a5) ∧ (protocolAll (1 :: a5) a5).build.hasDout = true ∧
    Quiescent (protocolAll (1 :: a5) a5) ∧
    (protocolAll (1 :: a5) a5).chain = some ⟨[true] ++ bitsLsbFirst 0xA5, stages a5⟩ ∧
    ProtocolBuild (protocolAll (0 :: zeros8) a5) ∧ (protocolAll (0 :: zeros8) a5).build.hasDout = true ∧
    Quiescent (protocolAll (0 :: zeros8) a5) ∧
    (protocolAll (0 :: zeros8) a5).chain = some ⟨[false] ++ bitsLsbFirst 0, stages a5⟩ := by decide

theorem witness_ReadByteRotatesLongChain :
    ProtocolBuild (protocolAll (1 :: a5) a5) ∧ (protocolAll (1 :: a5) a5).build.hasDout = true ∧
    Quiescent (protocolAll (1 :: a5) a5) ∧
    (protocolAll (1 :: a5) a5).chain = some ⟨[true] ++ bitsLsbFirst 0xA5, stages a5⟩ := by decide

/-- Program P4's chain: m = 2. -/
theorem witness_BucketBrigadeReadsWholeChain :
    ProtocolBuild (protocolAll (a5 ++ zeros8) a5) ∧ (protocolAll (a5 ++ zeros8) a5).build.hasDout = true ∧
    Quiescent (protocolAll (a5 ++ zeros8) a5) ∧
    (protocolAll (a5 ++ zeros8) a5).chain = some ⟨stages (a5 ++ zeros8), stages a5⟩ ∧
    (stages (a5 ++ zeros8)).length = 8 * 2 := by decide

/-- With the `clear` line and without. -/
theorem witness_SClearZeroesAndFlushes :
    StatefulBuild 2 (stateful 2 true [0x01, 0x80]) ∧ Quiescent (stateful 2 true [0x01, 0x80]) ∧
    DirsConfigured (stateful 2 true [0x01, 0x80]) ∧
    StatefulBuild 1 (stateful 1 false [0x80]) ∧ Quiescent (stateful 1 false [0x80]) ∧
    DirsConfigured (stateful 1 false [0x80]) := by decide

theorem witness_ClearStrategiesEquivalent :
    StatefulBuild 1 (stateful 1 false [0x80]) ∧ Quiescent (stateful 1 false [0x80]) ∧
    DirsConfigured (stateful 1 false [0x80]) ∧ (∀ c, (stateful 1 false [0x80]).chain = some c → c.sr.length ≤ 8 * 1) := by
  refine ⟨by decide, by decide, by decide, ?_⟩
  intro c h
  cases h
  decide

/-- The first index and the last. -/
theorem witness_SWriteSetsOneBitAndFlushes :
    StatefulBuild 2 (stateful 2 true [0x01, 0x80]) ∧ ShadowSized (stateful 2 true [0x01, 0x80]) ∧
    Quiescent (stateful 2 true [0x01, 0x80]) ∧ (0 : Int) ≤ 0 ∧ (0 : Int) < 8 * (2 : Nat) ∧
    (0 : Int) ≤ 15 ∧ (15 : Int) < 8 * (2 : Nat) := by decide

/-- Both sides of the range. -/
theorem witness_SWriteOutOfRangeIsSilent :
    StatefulBuild 2 (stateful 2 true [0x01, 0x80]) ∧ (-1 : Int) < 0 ∧ 8 * ((2 : Nat) : Int) ≤ 16 := by decide

theorem witness_SWriteArithmetic :
    pinInRange 4095 0 = true ∧ pinInRange 4095 32759 = true ∧ pinInRange 4095 32760 = false ∧
    pinInRange 1 (-1) = false := by decide

theorem witness_WriteLaws :
    StatefulBuild 2 (stateful 2 true [0x01, 0x80]) ∧ ShadowSized (stateful 2 true [0x01, 0x80]) ∧ 7 < 8 * 2 ∧ 15 < 8 * 2 ∧
    7 ≠ 15 ∧ logicalOutput (stateful 2 true [0x01, 0x80]) 7 = false := by decide

theorem witness_FlushSendsDescendingIndices :
    StatefulBuild 1 (stateful 1 false [0x88]) ∧ ShadowSized (stateful 1 false [0x88]) ∧ (0 : Int) ≤ 7 ∧
    (7 : Int) < 8 * (1 : Nat) := by decide

theorem witness_FlushSynchronises :
    StatefulBuild 2 (stateful 2 true [0x01, 0x80]) ∧ Quiescent (stateful 2 true [0x01, 0x80]) ∧
    DirsConfigured (stateful 2 true [0x01, 0x80]) ∧ ShadowSized (stateful 2 true [0x01, 0x80]) ∧
    (0 : Int) ≤ 15 ∧ (15 : Int) < 8 * (2 : Nat) := by decide

/-- Every state that `ready` builds on a chain of W >= 1 stages is at a command boundary. -/
theorem ready_boundary (b : Build) (shadow : List Byte) (sr st : List Bool) (hn : shadow.length = buildBytes b)
    (hw : 1 ≤ sr.length) (hs : st.length = sr.length) : Boundary (ready b shadow (some ⟨sr, st⟩)) where
  dirs := rfl
  levels := ⟨rfl, rfl, fun h => h, fun _ _ => rfl⟩
  shadow := hn
  chain := by intro c h; cases h; exact ⟨hs, hw⟩

theorem boundary_stateful : Boundary (stateful 2 true [0x01, 0x80]) :=
  ready_boundary _ _ _ _ rfl (by decide) rfl

theorem boundary_protocol : Boundary (protocolAll a5 zeros8) :=
  ready_boundary _ _ _ _ rfl (by decide) rfl

theorem synced_stateful : Synced (stateful 2 true [0x01, 0x80]) := by
  change ∀ c, _
  intro c h
  cases h
  decide

/-- The boundary invariant with a word at the port, and the step that takes it. -/
theorem witness_StepKeepsBoundary :
    Boundary (presentWord 0x9001000F (stateful 2 true [0x01, 0x80])) ∧
    (after 0x9001000F (stateful 2 true [0x01, 0x80])).isSome = true :=
  ⟨⟨boundary_stateful.dirs, boundary_stateful.levels, boundary_stateful.shadow, boundary_stateful.chain⟩,
    by decide +kernel⟩

theorem witness_StepKeepsChainSynchronised :
    Boundary (presentWord 0x80000000 (stateful 2 true [0x01, 0x80])) ∧
    Synced (presentWord 0x80000000 (stateful 2 true [0x01, 0x80])) ∧
    (after 0x80000000 (stateful 2 true [0x01, 0x80])).isSome = true :=
  ⟨⟨boundary_stateful.dirs, boundary_stateful.levels, boundary_stateful.shadow, boundary_stateful.chain⟩,
    synced_stateful, by decide +kernel⟩

/-- A machine whose reset sequence has just run, with a word at the port. -/
def released : State := presentWord 0x20000055 (releaseReset (State.powerOn (buildOf .protocol false) none))

theorem witness_StepKeepsLinesFollowTrace : LinesFollowTrace released ∧ (nextOf (step released)).isSome = true := by
  unfold LinesFollowTrace; decide

theorem witness_StepNeverNamesAbsentLine : OnlyPresentLines released ∧ (nextOf (step released)).isSome = true := by
  refine ⟨?_, by decide⟩
  have h : ∀ e ∈ released.trace, ∀ l ∈ eventLine e, present released.build l = true := by decide
  exact fun e he l hl => h e he l hl

theorem witness_StepKeepsWellTimed : WellTimed released.trace ∧ (nextOf (step released)).isSome = true :=
  ⟨.configure _ _ _ (.configure _ _ _ (.configure _ _ _ .nil)), by decide⟩

theorem witness_StatefulNeverReads :
    (stateful 2 true [0x01, 0x80]).build.layer = .stateful 2 ∧ Boundary (presentWord 0x80000000 (stateful 2 true [0x01, 0x80])) ∧
    (∀ e ∈ (presentWord 0x80000000 (stateful 2 true [0x01, 0x80])).trace, e.isGet = false) ∧
    (presentWord 0x80000000 (stateful 2 true [0x01, 0x80])).responses = [] ∧
    (stateful 2 true [0x01, 0x80]).build.hasOe = true ∧
    (after 0x80000000 (stateful 2 true [0x01, 0x80])).isSome = true :=
  ⟨rfl, witness_StepKeepsChainSynchronised.1, by decide, rfl, rfl, by decide +kernel⟩

/-- `SHOW`, and each command that leaves the shift stages alone. -/
theorem witness_OnlyShowChangesOutputs :
    Boundary (protocolAll a5 zeros8) ∧
    [Instr.showOut, .readBit, .setOe false, .pushBit true, .readByte true, .clear].map
      (fun i => (i.layer, (nextOf (exec i (protocolAll a5 zeros8))).isSome)) = List.replicate 6 (.protocol, true) :=
  ⟨boundary_protocol, by decide⟩

/-- The clauses of an edge, of a clock already high, of a latch already high, and of a clear held low. -/
theorem witness_ChainReactsToEdges :
    (protocolAll a5 a5).chain = some ⟨stages a5, stages a5⟩ ∧ (protocolAll a5 a5).lvl.clock = false ∧
    (protocolAll a5 a5).lvl.latch = false ∧
    clearLow (protocolAll a5 a5).build (protocolAll a5 a5).dir (protocolAll a5 a5).lvl = false ∧
    clockHigh.chain = some ⟨stages a5, stages a5⟩ ∧ clockHigh.lvl.clock = true ∧ clockHigh.lvl.latch = true ∧
    clearLow clockHigh.build clockHigh.dir clockHigh.lvl = false ∧
    clearIsLow.chain = some ⟨stages a5, stages a5⟩ ∧
    clearLow clearIsLow.build (dirsAfter clearIsLow.dir (.set .clock true)) (levelsAfter clearIsLow.lvl (.set .clock true)) =
      true := by decide

/-- An output, a line that is none, and a state at a command boundary. -/
theorem witness_PinPads :
    dirOf (resetDirs (buildOf .protocol false)) (drivenLine .data) = .output ∧
    dirOf (resetDirs (buildOf .protocol false)) (drivenLine .clear) ≠ .output ∧ DirsConfigured (protocolBare a5 a5) := by
  decide

theorem witness_ResetLeavesTheSpecifiedState :
    buildLegal (buildOf (.stateful 1) false) = true ∧ buildLegal (buildOf (.stateful 4095) true) = true ∧
    buildLegal (buildOf .protocol true) = true := by decide

/-- Both clauses. -/
theorem witness_ResetAndTheChain :
    (stateful 1 false [0x80]).chain = some ⟨orderedBits [0x80], orderedBits [0x80]⟩ ∧
    StatefulBuild 1 (stateful 1 false [0x80]) ∧ (orderedBits [0x80]).length ≤ 8 * 1 ∧
    (protocolAll a5 zeros8).chain = some ⟨stages a5, stages zeros8⟩ ∧ ProtocolBuild (protocolAll a5 zeros8) := by decide

theorem witness_ResetStateFromAnyPowerOn : (stages (a5 ++ a5)).length = 16 := by decide

theorem witness_LaterResetIsPowerUp :
    buildLegal (stateful 1 true [0x80]).build = true ∧
    ShadowSized { stateful 1 true [0x80] with host := [.reset, .command 0x80000000] } ∧
    ({ stateful 1 true [0x80] with host := [.reset, .command 0x80000000] } : State).host =
      .reset :: [.command 0x80000000] := by decide

theorem witness_EventCountsAndDurations :
    [Instr.pushBit true, .pushByte 0, .readBit, .readByte false, .clear, .showOut, .setOe true].map
      (fun i => (nextOf (exec i (protocolAll a5 a5))).isSome) = List.replicate 7 true ∧
    [Instr.sClear, .sWrite 7 true, .sWrite 8 true].map
      (fun i => (nextOf (exec i (stateful 1 false [0x80]))).isSome) = List.replicate 3 true := by decide +kernel

end Sys2Proof.Tests
end

section
/-! Proofs of the scope family (00_scope.md): which builds are refused, what every command of the build's layer does, which
events a command may issue, and what one event does. -/

namespace Sys2Proof.Machine

/-! ## The guard every command runs behind (R66) -/

/-- Every command is its layer's guard around some body (R66). -/
theorem exec_eq_guarded (i : Instr) (s : State) :
    (i.layer = .protocol ∧ ∃ run, exec i s = inProtocolBuild s run) ∨
    (i.layer = .stateful ∧ ∃ run, exec i s = inStatefulBuild s run) := by
  cases i with
  | sClear => exact .inr ⟨rfl, _, rfl⟩
  | sWrite pin bit => exact .inr ⟨rfl, _, rfl⟩
  | readBit => exact .inl ⟨rfl, fun s => respond (zext8 (readBit s).1) (readBit s).2, rfl⟩
  | readByte pb => exact .inl ⟨rfl, fun s => respond (readByte pb s).1 (readByte pb s).2, rfl⟩
  | _ => exact .inl ⟨rfl, _, rfl⟩

theorem protocolBuild_of_layerName {s : State} (h : layerName s.build.layer = .protocol) : ProtocolBuild s := by
  cases hl : s.build.layer with
  | protocol => exact hl
  | stateful n => simp [hl, layerName] at h

theorem exists_statefulBuild_of_layerName {s : State} (hb : buildLegal s.build = true)
    (h : layerName s.build.layer = .stateful) : ∃ n, StatefulBuild n s := by
  cases hl : s.build.layer with
  | protocol => simp [hl, layerName] at h
  | stateful n =>
    simp only [buildLegal, hl, Bool.and_eq_true, decide_eq_true_eq] at hb
    exact ⟨n, hl, hb⟩

/-- A command of a legal build's own layer answers a next state, whatever the operand and the state (R66, R126). -/
theorem exec_completes {i : Instr} {s : State} (hb : buildLegal s.build = true)
    (hl : i.layer = layerName s.build.layer) : ∃ t, exec i s = .next t := by
  obtain ⟨hi, run, hrun⟩ | ⟨hi, run, hrun⟩ := exec_eq_guarded i s
  · exact ⟨_, hrun.trans (inProtocolBuild_eq (protocolBuild_of_layerName (hl.symm.trans hi)) run)⟩
  · obtain ⟨n, hn⟩ := exists_statefulBuild_of_layerName hb (hl.symm.trans hi)
    exact ⟨_, hrun.trans (inStatefulBuild_eq hn run)⟩

/-! ## Builds out of range -/

theorem buildLegal_stateful_eq_false {b : Build} {n : Nat} (hl : b.layer = .stateful n) (hn : n = 0 ∨ 4095 < n) :
    buildLegal b = false := by
  simp only [buildLegal, hl, Bool.and_eq_false_iff, decide_eq_false_iff_not]
  change ¬ 1 ≤ n ∨ ¬ n ≤ 4095
  omega

/-- No command runs in a build out of range, of either layer (U15). -/
theorem exec_of_illegalBuild {s : State} (hb : buildLegal s.build = false) (i : Instr) :
    exec i s = .refused .illegalBuild := by
  obtain ⟨-, run, hrun⟩ | ⟨-, run, hrun⟩ := exec_eq_guarded i s
  · simp [hrun, inProtocolBuild, hb]
  · simp [hrun, inStatefulBuild, hb]

theorem step_of_illegalBuild {s : State} (hb : buildLegal s.build = false) : step s = .refused .illegalBuild := by
  simp [step, hb]

/-- Settles O9: a build out of range fails the check that `step` and every command's guard make first. -/
theorem illegalBuildIsRefused : Obligations.IllegalBuildIsRefused := by
  intro s n hl hn
  have hb := buildLegal_stateful_eq_false hl hn
  exact ⟨step_of_illegalBuild hb, exec_of_illegalBuild hb⟩

/-! ## The effect of one event (R11, R22, R23) -/

theorem dirOf_setDir (d : Dirs) (l : Line) (v : Dir) (k : Line) :
    dirOf (setDir d l v) k = if k = l then v else dirOf d k := by
  cases l <;> cases k <;> rfl

theorem levelOf_setLevel (v : Levels) (l : Driven) (b : Bool) (k : Driven) :
    levelOf (setLevel v l b) k = if k = l then b else levelOf v k := by
  cases l <;> cases k <;> rfl

/-- Settles O44: the registers' updates are `dirsAfter` and `levelsAfter` event by event, and `issue` writes no other field
that the statement names but the trace. -/
theorem eventEffects : Obligations.EventEffects := by
  intro s
  refine ⟨?_, ?_, ?_, ?_, dirOf_setDir s.dir, levelOf_setLevel s.lvl, fun e =>
    ⟨issue_trace s e, issue_shadow s e, issue_responses s e, issue_build s e, issue_host s e⟩⟩ <;>
    simp [dirsAfter, levelsAfter]

/-! ## The events a command may issue (R9, R13) -/

/-- What a command of a build may issue: it configures no line (R13, R22), drives and samples present lines only (R9). -/
def CommandMayIssue (b : Build) : Event → Prop
  | .cfg _ _ => False
  | .set l _ => present b (drivenLine l) = true
  | .get _ => b.hasDout = true
  | .delay _ => True

theorem CommandMayIssue.ne_cfg {b : Build} {e : Event} (h : CommandMayIssue b e) (l : Line) (d : Direction) :
    e ≠ .cfg l d := by
  rintro rfl
  exact h

/-- Events that configure no line leave every direction as it is (R22). -/
theorem foldl_dirsAfter_of_commandMayIssue {b : Build} {es : List Event} (h : ∀ e ∈ es, CommandMayIssue b e)
    (d : Dirs) : es.foldl dirsAfter d = d := by
  induction es with
  | nil => rfl
  | cons e es ih =>
    obtain ⟨he, hes⟩ := List.forall_mem_cons.1 h
    have hd : dirsAfter d e = d := by
      cases e with
      | cfg l v => exact absurd he id
      | _ => rfl
    rw [List.foldl_cons, hd, ih hes]

theorem commandMayIssue_pushBitTrace (b : Build) (x : Bool) : ∀ e ∈ pushBitTrace x, CommandMayIssue b e := by
  simp [pushBitTrace, CommandMayIssue, drivenLine, present]

theorem commandMayIssue_showTrace (b : Build) : ∀ e ∈ showTrace, CommandMayIssue b e := by
  simp [showTrace, CommandMayIssue, drivenLine, present]

theorem commandMayIssue_clearTrace {b : Build} (h : b.hasClear = true) : ∀ e ∈ clearTrace, CommandMayIssue b e := by
  simp [clearTrace, CommandMayIssue, drivenLine, present, h]

theorem commandMayIssue_pushByteTrace (b : Build) (v : Byte) : ∀ e ∈ pushByteTrace v, CommandMayIssue b e := by
  intro e he
  obtain ⟨x, -, hx⟩ := List.mem_flatMap.1 he
  exact commandMayIssue_pushBitTrace b x e hx

theorem commandMayIssue_flushTrace (b : Build) (shadow : List Byte) :
    ∀ e ∈ flushTrace shadow, CommandMayIssue b e := by
  refine List.forall_mem_append.2 ⟨fun e he => ?_, commandMayIssue_showTrace b⟩
  obtain ⟨v, -, hv⟩ := List.mem_flatMap.1 he
  exact commandMayIssue_pushByteTrace b v e hv

theorem commandMayIssue_clearRegisterTrace (b : Build) (n : Nat) :
    ∀ e ∈ clearRegisterTrace b.hasClear n, CommandMayIssue b e := by
  refine List.forall_mem_append.2 ⟨fun e he => ?_, commandMayIssue_flushTrace b _⟩
  split at he
  · exact commandMayIssue_clearTrace ‹_› e he
  · obtain ⟨tr, htr, het⟩ := List.mem_flatten.1 he
    exact commandMayIssue_pushByteTrace b 0 e (List.eq_of_mem_replicate htr ▸ het)

theorem commandMayIssue_readIterationTrace (b : Build) (pb r : Bool) :
    ∀ e ∈ readIterationTrace b.hasDout pb r, CommandMayIssue b e := by
  refine List.forall_mem_append.2 ⟨?_, commandMayIssue_pushBitTrace b _⟩
  split <;> simp [CommandMayIssue, *]

/-- Whatever the command, the operand and the state, its events are ones that a command of the build may issue. -/
theorem commandMayIssue_commandEvents (i : Instr) (s : State) : ∀ e ∈ commandEvents i s, CommandMayIssue s.build e := by
  cases i with
  | pushBit x => exact commandMayIssue_pushBitTrace s.build x
  | pushByte v => exact commandMayIssue_pushByteTrace s.build v
  | readBit =>
    simp only [commandEvents]
    split <;> simp [CommandMayIssue, *]
  | readByte pb =>
    intro e he
    obtain ⟨r, -, hr⟩ := List.mem_flatMap.1 he
    exact commandMayIssue_readIterationTrace s.build pb r e hr
  | clear =>
    simp only [commandEvents]
    split
    · exact commandMayIssue_clearTrace ‹_›
    · simp
  | showOut => exact commandMayIssue_showTrace s.build
  | setOe x =>
    simp only [commandEvents]
    split <;> simp [CommandMayIssue, drivenLine, present, *]
  | sClear => exact commandMayIssue_clearRegisterTrace s.build _
  | sWrite pin x =>
    simp only [commandEvents]
    split
    · exact commandMayIssue_flushTrace s.build _
    · simp

/-- Settles O11: `exec_completes` gives the next state, `exec_next` says which, and its events configure no line. -/
theorem everyCommandCompletes : Obligations.EveryCommandCompletes := by
  intro i s hb hl
  obtain ⟨t, ht⟩ := exec_completes hb hl
  obtain ⟨-, -, rfl⟩ := exec_next i s t ht
  have hev := commandMayIssue_commandEvents i s
  refine ⟨_, commandEvents i s, commandResponses i s, ht, issueAll_build _ _, ?_, issueAll_host _ _,
    issueAll_trace _ _, fun e he => (hev e he).ne_cfg, issueAll_responses _ _, ?_⟩
  · rw [issueAll_dir, foldl_dirsAfter_of_commandMayIssue hev]
  · cases i <;> rfl

/-! ## Absent lines (R9) -/

/-- The event names no absent line (R9). -/
def NamesPresentLine (b : Build) (e : Event) : Prop :=
  ∀ l, eventLine e = some l → present b l = true

theorem onlyPresentLines_iff (s : State) : OnlyPresentLines s ↔ ∀ e ∈ s.trace, NamesPresentLine s.build e := Iff.rfl

@[simp] theorem namesPresentLine_cfg (b : Build) (l : Line) (d : Direction) :
    NamesPresentLine b (.cfg l d) ↔ present b l = true := by
  simp [NamesPresentLine, eventLine]

@[simp] theorem namesPresentLine_set (b : Build) (l : Driven) (v : Bool) :
    NamesPresentLine b (.set l v) ↔ present b (drivenLine l) = true := by
  simp [NamesPresentLine, eventLine]

@[simp] theorem namesPresentLine_get (b : Build) (v : Bool) : NamesPresentLine b (.get v) ↔ b.hasDout = true := by
  simp [NamesPresentLine, eventLine, present]

@[simp] theorem namesPresentLine_delay (b : Build) (us : Nat) : NamesPresentLine b (.delay us) := by
  simp [NamesPresentLine, eventLine]

theorem CommandMayIssue.namesPresentLine {b : Build} {e : Event} (h : CommandMayIssue b e) : NamesPresentLine b e := by
  cases e with
  | cfg l d => exact absurd h id
  | set l v => exact (namesPresentLine_set b l v).2 h
  | get v => exact (namesPresentLine_get b v).2 h
  | delay us => exact namesPresentLine_delay b us

theorem forall_mem_whenPresent (has : Bool) (e : Event) (p : Event → Prop) :
    (∀ e' ∈ whenPresent has e, p e') ↔ (has = true → p e) := by
  cases has <;> simp [whenPresent]

/-- `P_RESET` configures and sets a line only where the build has it (R140). -/
theorem namesPresentLine_protocolResetEvents (b : Build) : ∀ e ∈ protocolResetEvents b, NamesPresentLine b e := by
  simp only [protocolResetEvents, List.forall_mem_append, forall_mem_whenPresent]
  simp [present, drivenLine]

theorem namesPresentLine_resetEvents (b : Build) : ∀ e ∈ resetEvents b, NamesPresentLine b e := by
  refine List.forall_mem_append.2 ⟨namesPresentLine_protocolResetEvents b, ?_⟩
  split
  · simp
  · exact fun e he => (commandMayIssue_clearRegisterTrace b _ e he).namesPresentLine

theorem releaseReset_onlyPresentLines (s : State) : OnlyPresentLines (releaseReset s) := by
  rw [releaseReset_eq, onlyPresentLines_iff]
  simpa using namesPresentLine_resetEvents s.build

theorem exec_keeps_onlyPresentLines {i : Instr} {s t : State} (hs : OnlyPresentLines s) (h : exec i s = .next t) :
    OnlyPresentLines t := by
  obtain ⟨-, -, rfl⟩ := exec_next i s t h
  rw [onlyPresentLines_iff, issueAll_trace, issueAll_build]
  exact List.forall_mem_append.2 ⟨hs, fun e he => (commandMayIssue_commandEvents i s e he).namesPresentLine⟩

/-- Settles O39: an idle step adds no event, a reset starts the trace anew with present lines, and a command adds events it
may issue. -/
theorem stepNeverNamesAbsentLine : Obligations.StepNeverNamesAbsentLine := by
  intro s t hs h
  obtain ⟨-, ⟨-, rfl⟩ | ⟨rest, -, rfl⟩ | ⟨w, rest, i, -, -, hx⟩⟩ := step_next s t h
  · exact hs
  · exact releaseReset_onlyPresentLines _
  · exact exec_keeps_onlyPresentLines (s := { s with host := rest }) hs hx

end Sys2Proof.Machine
end

section
/-! Proofs of the state family (10_state.md): what writes the line registers, what a driven line's pin carries, and which
events reach the two registers of the reference chain. -/

namespace Sys2Proof.Machine

/-! ## The line registers follow the trace (R22, R23) -/

/-- Issuing events records them and applies them to the line registers, so it keeps the two in step. -/
theorem issueAll_linesFollowTrace {s : State} (hs : LinesFollowTrace s) (es : List Event) :
    LinesFollowTrace (issueAll es s) := by
  obtain ⟨hdir, hlvl⟩ := hs
  constructor
  · rw [issueAll_dir, issueAll_trace, List.foldl_append, ← hdir]
  · rw [issueAll_lvl, issueAll_trace, List.foldl_append, ← hlvl]

/-- Asserting reset empties the trace and puts the line registers where an empty trace leaves them (R32). -/
theorem assertReset_linesFollowTrace (s : State) : LinesFollowTrace (assertReset s) := ⟨rfl, rfl⟩

theorem releaseReset_linesFollowTrace (s : State) : LinesFollowTrace (releaseReset s) := by
  rw [releaseReset_eq]
  exact issueAll_linesFollowTrace (assertReset_linesFollowTrace _) _

theorem exec_keeps_linesFollowTrace {i : Instr} {s t : State} (hs : LinesFollowTrace s) (h : exec i s = .next t) :
    LinesFollowTrace t := by
  obtain ⟨-, -, rfl⟩ := exec_next i s t h
  refine issueAll_linesFollowTrace ?_ _
  exact hs

/-- Settles O38: an idle step changes nothing, a reset starts trace and lines anew together, and a command does nothing to
the lines but issue events. -/
theorem stepKeepsLinesFollowTrace : Obligations.StepKeepsLinesFollowTrace := by
  intro s t hs h
  obtain ⟨-, ⟨-, rfl⟩ | ⟨rest, -, rfl⟩ | ⟨w, rest, i, -, -, hx⟩⟩ := step_next s t h
  · exact hs
  · exact releaseReset_linesFollowTrace _
  · exact exec_keeps_linesFollowTrace (s := { s with host := rest }) hs hx

/-! ## The pin of a driven line (R24) -/

theorem pad_of_output {d : Dirs} {l : Driven} (h : dirOf d (drivenLine l) = .output) (v : Levels) :
    pad d v l = some (levelOf v l) := by
  simp [pad, h]

theorem pad_of_ne_output {d : Dirs} {l : Driven} (h : dirOf d (drivenLine l) ≠ .output) (v : Levels) :
    pad d v l = none := by
  unfold pad
  split
  · exact absurd ‹_› h
  · rfl
  · rfl

/-- The reset sequence makes an output of a driven line exactly where the build has the line (R33). -/
theorem dirOf_resetDirs_driven (b : Build) (l : Driven) :
    dirOf (resetDirs b) (drivenLine l) = if present b (drivenLine l) then .output else .unconf := by
  cases l <;> rfl

/-- Settles O45: `pad` asks only whether the direction is OUT, and after reset that is whether the line is present. -/
theorem pinPads : Obligations.PinPads := by
  refine ⟨fun d v l => ⟨fun h => pad_of_output h v, fun h => pad_of_ne_output h v⟩, fun s l hs => ?_⟩
  have hdir := dirOf_resetDirs_driven s.build l
  rw [hs]
  split
  next hp => exact pad_of_output (by simp [hdir, hp]) s.lvl
  next hp => exact pad_of_ne_output (by simp [hdir, hp]) s.lvl

/-! ## Which events reach the chain's registers (R49 to R51) -/

@[simp] theorem chainHeld_st (b : Build) (d : Dirs) (v : Levels) (c : Chain) : (chainHeld b d v c).st = c.st := by
  unfold chainHeld
  split <;> rfl

theorem chainHeld_of_not_clearLow {b : Build} {d : Dirs} {v : Levels} (h : clearLow b d v = false) (c : Chain) :
    chainHeld b d v c = c := by
  simp [chainHeld, h]

/-- Only a rising latch edge writes the storage register (R50). -/
theorem chainEdge_st {e : Event} (h : e ≠ .set .latch true) (b : Build) (d : Dirs) (v : Levels) (c : Chain) :
    (chainEdge b d v e c).st = c.st := by
  unfold chainEdge
  split
  · split <;> rfl
  · exact absurd rfl h
  · rfl

/-- Of the edges only a rising clock edge writes the shift stages (R49). -/
theorem chainEdge_sr {e : Event} (h : e ≠ .set .clock true) (b : Build) (d : Dirs) (v : Levels) (c : Chain) :
    (chainEdge b d v e c).sr = c.sr := by
  unfold chainEdge
  split
  · exact absurd rfl h
  · split <;> rfl
  · rfl

theorem chainAfter_st {e : Event} (h : e ≠ .set .latch true) (b : Build) (d : Dirs) (v : Levels) (c : Chain) :
    (chainAfter b d v e c).st = c.st := by
  rw [chainAfter, chainHeld_st, chainEdge_st h]

/-- Only a `Set` of `clear` to low makes an inactive `clear` line active (R23). -/
theorem levelsAfter_clear {e : Event} (h : e ≠ .set .clear false) {v : Levels} (hv : v.clear = true) :
    (levelsAfter v e).clear = true := by
  cases e with
  | set l x =>
    cases l with
    | clear => simpa [levelsAfter, setLevel] using h
    | _ => exact hv
  | _ => exact hv

/-- With `clear` inactive before and after it, an event that does not raise the clock leaves the shift stages alone. -/
theorem chainAfter_sr {e : Event} (hk : e ≠ .set .clock true) (hc : e ≠ .set .clear false) {b : Build} {v : Levels}
    (hv : b.hasClear = true → v.clear = true) (d : Dirs) (c : Chain) : (chainAfter b d v e c).sr = c.sr := by
  have hlow : clearLow b (dirsAfter d e) (levelsAfter v e) = false :=
    clearLow_eq_false (fun hb => levelsAfter_clear hc (hv hb)) _
  rw [chainAfter, chainHeld_of_not_clearLow hlow, chainEdge_sr hk]

theorem chainRun_st {es : List Event} (h : .set .latch true ∉ es) (b : Build) (d : Dirs) (v : Levels) (c : Chain) :
    (chainRun b es d v c).st = c.st := by
  induction es generalizing d v c with
  | nil => rfl
  | cons e es ih =>
    obtain ⟨he, hes⟩ := not_or.1 (mt List.mem_cons.2 h)
    rw [chainRun, ih hes, chainAfter_st (Ne.symm he)]

theorem chainRun_sr {es : List Event} (hk : .set .clock true ∉ es) (hc : .set .clear false ∉ es) {b : Build}
    {v : Levels} (hv : b.hasClear = true → v.clear = true) (d : Dirs) (c : Chain) :
    (chainRun b es d v c).sr = c.sr := by
  induction es generalizing d v c with
  | nil => rfl
  | cons e es ih =>
    obtain ⟨hek, hesk⟩ := not_or.1 (mt List.mem_cons.2 hk)
    obtain ⟨hec, hesc⟩ := not_or.1 (mt List.mem_cons.2 hc)
    have hv' : b.hasClear = true → (levelsAfter v e).clear = true := fun hb => levelsAfter_clear (Ne.symm hec) (hv hb)
    rw [chainRun, ih hesk hesc hv', chainAfter_sr (Ne.symm hek) (Ne.symm hec) hv]

theorem issueAll_keeps_st {es : List Event} (h : .set .latch true ∉ es) (s : State) :
    (issueAll es s).chain.map Chain.st = s.chain.map Chain.st := by
  rw [issueAll_chain, Option.map_map]
  exact congrArg (Option.map · s.chain) (funext fun c => chainRun_st h _ _ _ c)

theorem issueAll_keeps_sr {es : List Event} (hk : .set .clock true ∉ es) (hc : .set .clear false ∉ es) {s : State}
    (hv : s.build.hasClear = true → s.lvl.clear = true) :
    (issueAll es s).chain.map Chain.sr = s.chain.map Chain.sr := by
  rw [issueAll_chain, Option.map_map]
  exact congrArg (Option.map · s.chain) (funext fun c => chainRun_sr hk hc hv _ c)

/-! ## `SHOW` alone transfers the stages (R28) -/

theorem latchRise_not_mem_pushBitTrace (x : Bool) : .set .latch true ∉ pushBitTrace x := by
  simp [pushBitTrace]

/-- Of the Protocol layer's commands `SHOW` alone raises the latch. -/
theorem latchRise_not_mem_commandEvents {i : Instr} (hl : i.layer = .protocol) (hi : i ≠ .showOut) (s : State) :
    .set .latch true ∉ commandEvents i s := by
  cases i with
  | pushBit x => exact latchRise_not_mem_pushBitTrace x
  | pushByte v =>
    intro h
    obtain ⟨x, -, hx⟩ := List.mem_flatMap.1 h
    exact latchRise_not_mem_pushBitTrace x hx
  | readBit => simp [commandEvents]
  | readByte pb =>
    intro h
    obtain ⟨r, -, hr⟩ := List.mem_flatMap.1 h
    obtain hget | hpush := List.mem_append.1 hr
    · simp at hget
    · exact latchRise_not_mem_pushBitTrace _ hpush
  | clear => simp [commandEvents, clearTrace]
  | showOut => exact absurd rfl hi
  | setOe x => simp [commandEvents]
  | sClear => cases hl
  | sWrite pin x => cases hl

/-- `SHOW`, `READBIT` and `SETOE` neither raise the clock nor lower `clear`. -/
theorem shiftEvents_not_mem_commandEvents {i : Instr} (hi : i = .showOut ∨ i = .readBit ∨ ∃ x, i = .setOe x)
    (s : State) : .set .clock true ∉ commandEvents i s ∧ .set .clear false ∉ commandEvents i s := by
  obtain rfl | rfl | ⟨x, rfl⟩ := hi
  · simp [commandEvents, showTrace]
  · simp [commandEvents]
  · simp [commandEvents]

/-- Settles O42: the storage register is written by a rising latch alone, which only `SHOW` issues; and at a boundary `clear`
is inactive, so the shift stages change only where a command raises the clock or lowers `clear`. -/
theorem onlyShowChangesOutputs : Obligations.OnlyShowChangesOutputs := by
  intro i s t hl hb h
  obtain ⟨-, -, hclear, -⟩ := hb.levels
  obtain ⟨-, -, rfl⟩ := exec_next i s t h
  constructor
  · intro hi
    exact issueAll_keeps_st (latchRise_not_mem_commandEvents hl hi s) _
  · intro hi
    obtain ⟨hk, hc⟩ := shiftEvents_not_mem_commandEvents hi s
    exact issueAll_keeps_sr hk hc hclear

end Sys2Proof.Machine
end

section
/-! Proofs of the memory family (20_memory.md): what the last stage of the chain gives back, how a step takes a command from
the port, in which order a flush sends the shadow buffer, and what a `STATEFUL` build never does. -/

namespace Sys2Proof.Machine

/-! ## The level sampled (R27, R52) -/

theorem dataOutNow_of_chain {s : State} {c : Chain} (hc : s.chain = some c) (h : c.sr ≠ []) :
    dataOutNow s = c.sr.getLast h := by
  simp [dataOutNow, hc, List.getLast?_eq_some_getLast h]

theorem dataOutNow_of_no_chain {s : State} (hc : s.chain = none) : dataOutNow s = Config.dataOutLevel s.gets := by
  simp [dataOutNow, hc]

/-- Settles O15: the last stage answers where there is one, and the free value stands in where there is no chain. -/
theorem sampleIsLastStage : Obligations.SampleIsLastStage :=
  ⟨fun _ _ h hc => dataOutNow_of_chain hc h, fun _ hc => dataOutNow_of_no_chain hc⟩

/-! ## Taking a command from the port (R58, R60) -/

theorem presented_of_command {s : State} {w : Word} {rest : List HostInput} {i : Instr}
    (hh : s.host = .command w :: rest) (hd : decode w = .command i) : presented s = .command i := by
  simp [presented, hh, hd]

theorem takeInput_of_cons {s : State} {x : HostInput} {rest : List HostInput} (hh : s.host = x :: rest) :
    takeInput s = { s with host := rest } := by
  simp [takeInput, hh]

theorem step_of_presented_command {s : State} {i : Instr} (hb : buildLegal s.build = true)
    (hp : presented s = .command i) : step s = exec i (takeInput s) := by
  simp [step, hb, hp]

/-- Settles O6: the head of the stream is what is presented, and taking it leaves the rest. -/
theorem stepRunsPresentedCommand : Obligations.StepRunsPresentedCommand := by
  intro s w rest i hb hh hd
  rw [step_of_presented_command hb (presented_of_command hh hd), takeInput_of_cons hh]

/-! ## The order of a flush on the wire (R42, R43) -/

@[simp] theorem dataBits_append (es fs : List Event) : dataBits (es ++ fs) = dataBits es ++ dataBits fs :=
  List.filterMap_append

@[simp] theorem dataBits_pushBitTrace (x : Bool) : dataBits (pushBitTrace x) = [x] := rfl

@[simp] theorem dataBits_showTrace : dataBits showTrace = [] := rfl

/-- If each block of events puts the bits `g a` on the line, the blocks in a row put those bits there in a row. -/
theorem dataBits_flatMap {α : Type} {f : α → List Event} {g : α → List Bool} (h : ∀ a, dataBits (f a) = g a)
    (as : List α) : dataBits (as.flatMap f) = as.flatMap g := by
  induction as with
  | nil => rfl
  | cons a as ih => simp only [List.flatMap_cons, dataBits_append, h, ih]

theorem dataBits_pushByteTrace (v : Byte) : dataBits (pushByteTrace v) = bitsMsbFirst v := by
  rw [pushByteTrace, dataBits_flatMap dataBits_pushBitTrace, List.flatMap_singleton']

/-- Highest byte first and, in each byte, bit 7 first: a flush sends the ordered bits from the last to the first. -/
theorem dataBits_flushTrace (shadow : List Byte) : dataBits (flushTrace shadow) = (orderedBits shadow).reverse := by
  have hrev : bitsMsbFirst = List.reverse ∘ bitsLsbFirst := rfl
  rw [flushTrace, dataBits_append, dataBits_flatMap dataBits_pushByteTrace, dataBits_showTrace, List.append_nil,
    orderedBits, List.reverse_flatMap, hrev]

/-- The ordered bits of a buffer are its bits `p % 8` of byte `p / 8`, p ascending (R54). -/
theorem orderedBits_eq_map_range (shadow : List Byte) :
    orderedBits shadow = (List.range (8 * shadow.length)).map fun p => bitOf (shadow.getD (p / 8) 0) (p % 8) := by
  induction shadow with
  | nil => rfl
  | cons v shadow ih =>
    have hlen : 8 * (v :: shadow).length = 8 + 8 * shadow.length := by simp; omega
    rw [hlen, List.range_add, List.map_append, List.map_map, orderedBits, List.flatMap_cons, ← orderedBits, ih]
    congr 1
    refine List.map_congr_left fun p _ => ?_
    have hdiv : (8 + p) / 8 = p / 8 + 1 := by omega
    simp [hdiv]

theorem orderedBits_eq_map_logicalOutput {n : Nat} {s : State} (hs : s.shadow.length = n) :
    orderedBits s.shadow = (List.range (8 * n)).map (logicalOutput s) := by
  subst hs
  exact orderedBits_eq_map_range s.shadow

/-- Events do not touch the shadow buffer, so they leave every logical output as it is. -/
theorem logicalOutput_issueAll (es : List Event) (s : State) : logicalOutput (issueAll es s) = logicalOutput s := by
  funext p
  simp [logicalOutput, shadowByte]

theorem shadow_length_of_shadowSized {n : Nat} {s : State} (hb : StatefulBuild n s) (hs : ShadowSized s) :
    s.shadow.length = n :=
  hs.trans (by simp [buildBytes, hb.1])

@[simp] theorem writeShadowBit_shadow_length (pin : Int) (b : Bool) (s : State) :
    (writeShadowBit pin b s).shadow.length = s.shadow.length := by
  simp [writeShadowBit]

/-- A valid `SWRITE` is the write of one bit and then the events of a flush of the buffer so written (R104). -/
theorem exec_sWrite_valid {n : Nat} {s : State} (hb : StatefulBuild n s) (hs : ShadowSized s) {pin : Int}
    (h0 : 0 ≤ pin) (h1 : pin < 8 * n) (b : Bool) :
    exec (.sWrite pin b) s =
      .next (issueAll (flushTrace (writeShadowBit pin b s).shadow) (writeShadowBit pin b s)) := by
  have hpin : pinInRange n pin = true := by simp [pinInRange, h0, h1]
  rw [← writePin_valid n pin b s (shadow_length_of_shadowSized hb hs) hpin]
  exact inStatefulBuild_eq hb _

/-- Settles O33: the events are those of a flush, whose data bits are the ordered bits backwards. -/
theorem flushSendsDescendingIndices : Obligations.FlushSendsDescendingIndices := by
  intro n pin b s hb hs h0 h1
  have hlen : (writeShadowBit pin b s).shadow.length = n :=
    (writeShadowBit_shadow_length pin b s).trans (shadow_length_of_shadowSized hb hs)
  refine ⟨_, _, exec_sWrite_valid hb hs h0 h1 b, issueAll_trace _ _, ?_⟩
  rw [dataBits_flushTrace, logicalOutput_issueAll, orderedBits_eq_map_logicalOutput hlen, List.map_reverse]

/-! ## What a `STATEFUL` build never does (R108) -/

/-- The build without the two lines that the State-Based Register has no use for once reset is over. -/
def withoutDoutAndOe (b : Build) : Build := { b with hasDout := false, hasOe := false }

/-- The State-Based Register's commands issue only what a build with neither `dataOut` nor `outputEnable` may issue. -/
theorem commandMayIssue_commandEvents_of_stateful {i : Instr} (hi : i.layer = .stateful) (s : State) :
    ∀ e ∈ commandEvents i s, CommandMayIssue (withoutDoutAndOe s.build) e := by
  cases i with
  | sClear => exact commandMayIssue_clearRegisterTrace (withoutDoutAndOe s.build) _
  | sWrite pin x =>
    simp only [commandEvents]
    split
    · exact commandMayIssue_flushTrace _ _
    · simp
  | _ => cases hi

theorem commandResponses_of_stateful {i : Instr} (hi : i.layer = .stateful) (s : State) : commandResponses i s = [] := by
  cases i with
  | sClear => rfl
  | sWrite pin x => rfl
  | _ => cases hi

/-- After `P_RESET` a reset issues only what a build with neither `dataOut` nor `outputEnable` may issue. -/
theorem resetEvents_eq_append (b : Build) : ∃ es, resetEvents b = protocolResetEvents b ++ es ∧
    ∀ e ∈ es, CommandMayIssue (withoutDoutAndOe b) e := by
  refine ⟨_, rfl, ?_⟩
  split
  · simp
  · exact commandMayIssue_clearRegisterTrace (withoutDoutAndOe b) _

theorem CommandMayIssue.isGet_eq_false {b : Build} {e : Event} (h : CommandMayIssue b e) (hd : b.hasDout = false) :
    e.isGet = false := by
  cases e with
  | get v => exact absurd (hd.symm.trans h) Bool.false_ne_true
  | _ => rfl

theorem CommandMayIssue.levelsAfter_outputEnable {b : Build} {e : Event} (h : CommandMayIssue b e)
    (ho : b.hasOe = false) (v : Levels) : (levelsAfter v e).outputEnable = v.outputEnable := by
  cases e with
  | set l x =>
    cases l with
    | outputEnable => exact absurd (ho.symm.trans h) Bool.false_ne_true
    | _ => rfl
  | _ => rfl

theorem foldl_levelsAfter_outputEnable {b : Build} (ho : b.hasOe = false) {es : List Event}
    (h : ∀ e ∈ es, CommandMayIssue b e) (v : Levels) : (es.foldl levelsAfter v).outputEnable = v.outputEnable := by
  induction es generalizing v with
  | nil => rfl
  | cons e es ih =>
    obtain ⟨he, hes⟩ := List.forall_mem_cons.1 h
    rw [List.foldl_cons, ih hes, he.levelsAfter_outputEnable ho]

theorem isGet_protocolResetEvents (b : Build) : ∀ e ∈ protocolResetEvents b, e.isGet = false := by
  simp only [protocolResetEvents, List.forall_mem_append, forall_mem_whenPresent]
  simp [Event.isGet]

/-- Nothing sampled and nothing answered since reset, and the `outputEnable` line, where present, an output at the level
that enables the outputs (R33, R108). -/
structure SilentAndEnabled (s : State) : Prop where
  trace : ∀ e ∈ s.trace, e.isGet = false
  responses : s.responses = []
  dirs : DirsConfigured s
  enable : s.build.hasOe = true → s.lvl.outputEnable = false

theorem SilentAndEnabled.outputsEnabled {s : State} (h : SilentAndEnabled s) : outputsEnabled s = true := by
  unfold Machine.outputsEnabled
  cases ho : s.build.hasOe with
  | false => rfl
  | true =>
    have hdir : dirOf s.dir (drivenLine .outputEnable) = .output := by
      rw [h.dirs, dirOf_resetDirs_driven]
      simp [drivenLine, present, ho]
    simp [pad_of_output hdir, levelOf, h.enable ho]

theorem releaseReset_silentAndEnabled (s : State) : SilentAndEnabled (releaseReset s) := by
  obtain ⟨es, hes, hmay⟩ := resetEvents_eq_append s.build
  rw [releaseReset_eq, hes]
  constructor
  · rw [issueAll_trace]
    exact List.forall_mem_append.2 ⟨by simp, List.forall_mem_append.2
      ⟨isGet_protocolResetEvents s.build, fun e he => (hmay e he).isGet_eq_false rfl⟩⟩
  · simp
  · simp [DirsConfigured, protocolReset_dirs, foldl_dirsAfter_of_commandMayIssue hmay]
  · simp [protocolReset_levels, foldl_levelsAfter_outputEnable rfl hmay, resetLevels]

theorem exec_keeps_silentAndEnabled {i : Instr} {s t : State} (hl : layerName s.build.layer = .stateful)
    (hs : SilentAndEnabled s) (h : exec i s = .next t) : SilentAndEnabled t := by
  obtain ⟨hi, -, rfl⟩ := exec_next i s t h
  have hmay := commandMayIssue_commandEvents_of_stateful (hi.trans hl) s
  constructor
  · rw [issueAll_trace]
    exact List.forall_mem_append.2 ⟨hs.trace, fun e he => (hmay e he).isGet_eq_false rfl⟩
  · simp [hs.responses, commandResponses_of_stateful (hi.trans hl)]
  · simpa [DirsConfigured, foldl_dirsAfter_of_commandMayIssue hmay] using hs.dirs
  · simpa [foldl_levelsAfter_outputEnable rfl hmay] using hs.enable

theorem step_keeps_silentAndEnabled {s t : State} (hl : layerName s.build.layer = .stateful) (hs : SilentAndEnabled s)
    (h : step s = .next t) : SilentAndEnabled t := by
  obtain ⟨-, ⟨-, rfl⟩ | ⟨rest, -, rfl⟩ | ⟨w, rest, i, -, -, hx⟩⟩ := step_next s t h
  · exact hs
  · exact releaseReset_silentAndEnabled _
  · exact exec_keeps_silentAndEnabled (s := { s with host := rest }) hl ⟨hs.trace, hs.responses, hs.dirs, hs.enable⟩ hx

/-- No step writes the build parameters (R31). -/
theorem step_build {s t : State} (h : step s = .next t) : t.build = s.build := by
  obtain ⟨-, ⟨-, rfl⟩ | ⟨rest, -, rfl⟩ | ⟨w, rest, i, -, -, hx⟩⟩ := step_next s t h
  · rfl
  · rw [releaseReset_eq, issueAll_build]; rfl
  · obtain ⟨-, -, rfl⟩ := exec_next i _ t hx
    exact issueAll_build _ _

/-- Settles O41: every step of a `STATEFUL` build keeps `SilentAndEnabled`, which the hypotheses give at the boundary. -/
theorem statefulNeverReads : Obligations.StatefulNeverReads := by
  intro n s t hlayer hb htrace hresp h
  have hl : layerName s.build.layer = .stateful := by rw [hlayer]; rfl
  obtain ⟨-, -, -, henable⟩ := hb.levels
  have ht := step_keeps_silentAndEnabled hl ⟨htrace, hresp, hb.dirs, henable hl⟩ h
  exact ⟨ht.trace, ht.responses, step_build h ▸ ht.enable, ht.outputsEnabled⟩

end Sys2Proof.Machine
end

section
/-! Proofs of the encoding family (30_encoding.md): the decoder and the encoder are each other's inverse, the decoder agrees
with the printed opcode map and with the list of illegal words, and which commands a build accepts. -/

namespace Sys2Proof

/-! ## The decoder, field by field (R61, R65) -/

@[simp] theorem requireZero_eq_command_iff {n : Nat} {v : BitVec n} {why : Illegal} {d : Decoded} {i : Instr} :
    requireZero v why d = .command i ↔ v = 0 ∧ d = .command i := by
  unfold requireZero
  split <;> simp_all

@[simp] theorem requireZero_eq_illegal_iff {n : Nat} {v : BitVec n} {x why : Illegal} {d : Decoded} :
    requireZero v x d = .illegal why ↔ (v ≠ 0 ∧ x = why) ∨ (v = 0 ∧ d = .illegal why) := by
  unfold requireZero
  split <;> simp_all

@[simp] theorem requireNoBoolean_eq_command_iff {f : Bool} {d : Decoded} {i : Instr} :
    requireNoBoolean f d = .command i ↔ f = false ∧ d = .command i := by
  cases f <;> simp [requireNoBoolean]

@[simp] theorem requireNoBoolean_eq_illegal_iff {f : Bool} {why : Illegal} {d : Decoded} :
    requireNoBoolean f d = .illegal why ↔ (f = true ∧ why = .booleanSet) ∨ (f = false ∧ d = .illegal why) := by
  cases f <;> simp [requireNoBoolean, eq_comm]

theorem decode_of_rsvField_eq_zero {w : Word} (h : rsvField w = 0) :
    decode w = decodeFields (opField w) (fField w) (argField w) := by
  simp [decode, requireZero, h]

@[simp] theorem decode_packFields (op : BitVec 4) (f : Bool) (arg : BitVec 16) :
    decode (packFields op f arg) = decodeFields op f arg := by
  simp [decode_of_rsvField_eq_zero]

/-! ## Decoding and encoding are inverse -/

@[simp] theorem wellFormed_sWrite_iff {pin : Int} {b : Bool} :
    (Instr.sWrite pin b).wellFormed = true ↔ -32768 ≤ pin ∧ pin ≤ 32767 := by
  simp [Instr.wellFormed]

/-- The fields of a well-formed command's word name that command (R62, R63). -/
theorem decode_encode {i : Instr} (hi : i.wellFormed = true) : decode (encode i) = .command i := by
  cases i with
  | pushByte v => simp [encode, decodeFields, argHigh_byteArg, argByte_byteArg]
  | sWrite pin b => simp [encode, decodeFields, sext16_pinArg pin (wellFormed_sWrite_iff.mp hi)]
  | _ => simp [encode, decodeFields]

/-- An opcode's command spells the opcode, the Boolean and the argument it was decoded from: a field it has no operand for
is one that was required to be zero. -/
theorem encode_of_decodeFields {op : BitVec 4} {f : Bool} {arg : BitVec 16} {i : Instr}
    (h : decodeFields op f arg = .command i) : i.wellFormed = true ∧ encode i = packFields op f arg := by
  have hop {k : Nat} (hk : op.toNat = k) : op = BitVec.ofNat 4 k := by rw [← hk, BitVec.ofNat_toNat, BitVec.setWidth_eq]
  unfold decodeFields at h
  split at h <;> rename_i hk <;>
    simp only [requireZero_eq_command_iff, requireNoBoolean_eq_command_iff, Decoded.command.injEq, reduceCtorEq] at h <;>
    rw [hop hk]
  case h_1 | h_4 | h_7 =>
    obtain ⟨rfl, rfl⟩ := h
    exact ⟨rfl, rfl⟩
  case h_3 | h_5 | h_6 | h_8 =>
    obtain ⟨rfl, rfl, rfl⟩ := h
    exact ⟨rfl, rfl⟩
  case h_2 =>
    obtain ⟨rfl, ha, rfl⟩ := h
    exact ⟨rfl, by rw [encode, byteArg_argByte arg ha]; rfl⟩
  case h_9 =>
    obtain rfl := h
    exact ⟨wellFormed_sWrite_iff.mpr (sext16_range arg), by rw [encode, pinArg_sext16]; rfl⟩

/-- A word decodes to a command exactly when it is a well-formed command's word (R61 to R63). -/
theorem decode_eq_command_iff {w : Word} {i : Instr} :
    decode w = .command i ↔ i.wellFormed = true ∧ encode i = w := by
  constructor
  · intro h
    obtain ⟨hr, hf⟩ := requireZero_eq_command_iff.mp h
    rw [← packFields_of_word w hr]
    exact encode_of_decodeFields hf
  · rintro ⟨hi, rfl⟩
    exact decode_encode hi

/-- Settles O2: the fields of an encoded command are the ones it was packed from. -/
theorem decodeOfEncode : Obligations.DecodeOfEncode :=
  fun _ => decode_encode

/-- Settles O3: the fields the command does not use were zero, so packing the others gives the word again. -/
theorem encodeOfDecode : Obligations.EncodeOfDecode :=
  fun _ _ => decode_eq_command_iff.mp

/-- Settles O1: the words are fixed, and the decoder computes. -/
theorem specWordsDecode : Obligations.SpecWordsDecode := by
  unfold Obligations.SpecWordsDecode
  decide

/-! ## The fields as numbers (R61) -/

theorem opField_toNat (w : Word) : (opField w).toNat = w.toNat / 2 ^ 28 := by
  have := w.isLt
  rw [opField, BitVec.extractLsb'_toNat, Nat.shiftRight_eq_div_pow]
  omega

theorem rsvField_toNat (w : Word) : (rsvField w).toNat = w.toNat / 2 ^ 17 % 2 ^ 11 := by
  rw [rsvField, BitVec.extractLsb'_toNat, Nat.shiftRight_eq_div_pow]

theorem argField_toNat (w : Word) : (argField w).toNat = w.toNat % 2 ^ 16 := by
  rw [argField, BitVec.extractLsb'_toNat, Nat.shiftRight_zero]

theorem argHigh_toNat (a : BitVec 16) : (argHigh a).toNat = a.toNat / 2 ^ 8 := by
  have := a.isLt
  rw [argHigh, BitVec.extractLsb'_toNat, Nat.shiftRight_eq_div_pow]
  omega

/-! ## The rows of the opcode map (R63) -/

/-- The row of a command (R63); `row_mem` and `row_mnemonic` tie it to the printed map. -/
def Instr.row : Instr → OpcodeRow
  | .pushBit _ => ⟨"PUSHBIT", .protocol, 0x10000000, 0xFFFEFFFF⟩
  | .pushByte _ => ⟨"PUSHBYTE", .protocol, 0x20000000, 0xFFFFFF00⟩
  | .readBit => ⟨"READBIT", .protocol, 0x30000000, 0xFFFFFFFF⟩
  | .readByte _ => ⟨"READBYTE", .protocol, 0x40000000, 0xFFFEFFFF⟩
  | .clear => ⟨"CLEAR", .protocol, 0x50000000, 0xFFFFFFFF⟩
  | .showOut => ⟨"SHOW", .protocol, 0x60000000, 0xFFFFFFFF⟩
  | .setOe _ => ⟨"SETOE", .protocol, 0x70000000, 0xFFFEFFFF⟩
  | .sClear => ⟨"SCLEAR", .stateful, 0x80000000, 0xFFFFFFFF⟩
  | .sWrite _ _ => ⟨"SWRITE", .stateful, 0x90000000, 0xFFFE0000⟩

theorem Instr.row_mem (i : Instr) : i.row ∈ opcodeRows := by cases i <;> simp [Instr.row, opcodeRows]

theorem Instr.row_mnemonic (i : Instr) : i.row.mnemonic = i.mnemonic := by cases i <;> rfl

/-- The mnemonic identifies the row. -/
theorem opcodeRow_eq_of_mnemonic_eq : ∀ r ∈ opcodeRows, ∀ q ∈ opcodeRows, r.mnemonic = q.mnemonic → r = q := by
  decide

/-- Two words are equal exactly when their four fields are (R61). -/
theorem word_eq_iff_fields {v w : Word} :
    v = w ↔ opField v = opField w ∧ rsvField v = rsvField w ∧ fField v = fField w ∧ argField v = argField w := by
  refine ⟨by rintro rfl; simp, ?_⟩
  rintro ⟨hop, hrsv, hf, harg⟩
  apply BitVec.eq_of_getLsbD_eq
  intro i hi
  have hbit {n : Nat} (start : Nat) (h : v.extractLsb' start n = w.extractLsb' start n) (h1 : start ≤ i)
      (h2 : i < start + n) : v.getLsbD i = w.getLsbD i := by
    have e := congrArg (fun x => x.getLsbD (i - start)) h
    simpa [BitVec.getLsbD_extractLsb', show i - start < n by omega, show start + (i - start) = i by omega] using e
  by_cases h1 : i < 16
  · exact hbit 0 harg (by omega) h1
  · by_cases h2 : i = 16
    · exact h2 ▸ hf
    · by_cases h3 : i < 28
      · exact hbit 17 hrsv (by omega) h3
      · exact hbit 28 hop (by omega) (by omega)

theorem opField_and (v w : Word) : opField (v &&& w) = opField v &&& opField w := by
  simp [opField, BitVec.extractLsb'_and]

theorem rsvField_and (v w : Word) : rsvField (v &&& w) = rsvField v &&& rsvField w := by
  simp [rsvField, BitVec.extractLsb'_and]

theorem fField_and (v w : Word) : fField (v &&& w) = (fField v && fField w) := by
  simp [fField]

theorem argField_and (v w : Word) : argField (v &&& w) = argField v &&& argField w := by
  simp [argField, BitVec.extractLsb'_and]

/-- Every row fixes `op` and `rsv` wholly; its pattern is its opcode with every other bit 0. -/
theorem opcodeRow_fields : ∀ r ∈ opcodeRows,
    opField r.mask = BitVec.allOnes 4 ∧ rsvField r.mask = BitVec.allOnes 11 ∧ rsvField r.pattern = 0 ∧
    fField r.pattern = false ∧ argField r.pattern = 0 := by
  decide

/-- `(w & mask) == match`, field by field. -/
theorem hits_iff_fields {r : OpcodeRow} (hr : r ∈ opcodeRows) (w : Word) :
    r.hits w = true ↔ opField w = opField r.pattern ∧ rsvField w = 0 ∧ (fField w && fField r.mask) = false ∧
      argField w &&& argField r.mask = 0 := by
  obtain ⟨hop, hrsv, hrsv0, hf0, harg0⟩ := opcodeRow_fields r hr
  rw [OpcodeRow.hits, beq_iff_eq, word_eq_iff_fields, opField_and, rsvField_and, fField_and, argField_and, hop, hrsv,
    hrsv0, hf0, harg0, BitVec.and_allOnes, BitVec.and_allOnes]

/-- The bits of `arg` that `PUSHBYTE`'s mask keeps are the ones the command does not use (R65 (e)). -/
theorem and_pushByteMask_eq_zero_iff (a : BitVec 16) : a &&& 0xFF00 = 0 ↔ argHigh a = 0 := by
  constructor
  · intro h
    have hand : argHigh (a &&& 0xFF00) = argHigh a &&& BitVec.allOnes 8 := by
      rw [argHigh, BitVec.extractLsb'_and]; rfl
    rw [BitVec.and_allOnes, h] at hand
    exact hand.symm
  · intro h
    have hbyte : ∀ v : Byte, byteArg v &&& 0xFF00 = 0 := by decide
    rw [← byteArg_argByte a h]
    exact hbyte _

/-- A command's word matches the command's row. -/
theorem hits_row_encode (i : Instr) : i.row.hits (encode i) = true := by
  rw [hits_iff_fields i.row_mem]
  cases i with
  | pushByte v =>
    rw [encode, opField_packFields, rsvField_packFields, fField_packFields, argField_packFields, Instr.row]
    exact ⟨rfl, rfl, rfl, (and_pushByteMask_eq_zero_iff _).mpr (argHigh_byteArg v)⟩
  | _ =>
    rw [encode, opField_packFields, rsvField_packFields, fField_packFields, argField_packFields, Instr.row]
    exact ⟨rfl, rfl, by simp [fField], by simp [argField]⟩

/-- A word that matches a row decodes to a command of that row: the fields the mask covers are the ones the decoder requires
to be zero. -/
theorem exists_command_of_hits {w : Word} {r : OpcodeRow} (hr : r ∈ opcodeRows) (h : r.hits w = true) :
    ∃ i : Instr, decode w = .command i ∧ i.mnemonic = r.mnemonic ∧ i.layer = r.layer := by
  obtain ⟨hop, hrsv, hf, harg⟩ := (hits_iff_fields hr w).mp h
  have hd : decode w = decodeFields (opField r.pattern) (fField w) (argField w) :=
    hop ▸ decode_of_rsvField_eq_zero hrsv
  have hf0 (hm : fField r.mask = true) : fField w = false := by simpa [hm] using hf
  have harg0 (hm : argField r.mask = BitVec.allOnes 16) : argField w = 0 := by
    simpa only [hm, BitVec.and_allOnes] using harg
  simp only [opcodeRows, List.mem_cons, List.not_mem_nil, or_false] at hr
  rcases hr with rfl | rfl | rfl | rfl | rfl | rfl | rfl | rfl | rfl
  · exact ⟨.pushBit (fField w), by rw [hd, harg0 rfl]; rfl, rfl, rfl⟩
  · refine ⟨.pushByte (argByte (argField w)), ?_, rfl, rfl⟩
    have hhigh : argHigh (argField w) = 0 := (and_pushByteMask_eq_zero_iff _).mp harg
    rw [hd, hf0 rfl]
    exact requireZero_eq_command_iff.mpr ⟨hhigh, rfl⟩
  · exact ⟨.readBit, by rw [hd, hf0 rfl, harg0 rfl]; rfl, rfl, rfl⟩
  · exact ⟨.readByte (fField w), by rw [hd, harg0 rfl]; rfl, rfl, rfl⟩
  · exact ⟨.clear, by rw [hd, hf0 rfl, harg0 rfl]; rfl, rfl, rfl⟩
  · exact ⟨.showOut, by rw [hd, hf0 rfl, harg0 rfl]; rfl, rfl, rfl⟩
  · exact ⟨.setOe (fField w), by rw [hd, harg0 rfl]; rfl, rfl, rfl⟩
  · exact ⟨.sClear, by rw [hd, hf0 rfl, harg0 rfl]; rfl, rfl, rfl⟩
  · exact ⟨.sWrite (sext16 (argField w)) (fField w), hd, rfl, rfl⟩

/-- The row of a command is the only one with its mnemonic. -/
theorem row_eq_of_mnemonic {i : Instr} {r : OpcodeRow} (hr : r ∈ opcodeRows) (h : i.mnemonic = r.mnemonic) : i.row = r :=
  opcodeRow_eq_of_mnemonic_eq _ i.row_mem _ hr (i.row_mnemonic.trans h)

/-! ## The operand bits (R62) -/

/-- `sext_16` of `arg` is the pattern's `p` bits, bit 15 with the weight of the sign (R62). -/
theorem sext16_argField (w : Word) :
    sext16 (argField w) = (w.toNat % 2 ^ 15 : Nat) - (if w.getLsbD 15 then 2 ^ 15 else 0) := by
  have hbit : w.getLsbD 15 = decide (w.toNat / 2 ^ 15 % 2 = 1) := Nat.testBit_eq_decide_div_mod_eq
  rw [sext16, BitVec.toInt_eq_toNat_cond, argField_toNat, hbit]
  simp only [decide_eq_true_eq]
  omega

/-- Settles O4: a command's word matches its row and a word that matches a row is such a word; a word decodes to one command
at most, so it matches one row at most. -/
theorem decoderFollowsOpcodeMap : Obligations.DecoderFollowsOpcodeMap := by
  refine ⟨fun w r hr => ⟨exists_command_of_hits hr, ?_⟩, fun w i _ => ⟨i.row, i.row_mem, i.row_mnemonic⟩,
    ?_, ?_, ?_, ?_, ?_, ?_⟩
  · rintro ⟨i, hd, hm, -⟩
    obtain ⟨-, rfl⟩ := decode_eq_command_iff.mp hd
    exact row_eq_of_mnemonic hr hm ▸ hits_row_encode i
  · intro w r q hr hq hrw hqw
    obtain ⟨i, hi, him, -⟩ := exists_command_of_hits hr hrw
    obtain ⟨j, hj, hjm, -⟩ := exists_command_of_hits hq hqw
    obtain rfl : i = j := by simpa [hi] using hj
    exact (row_eq_of_mnemonic hr him).symm.trans (row_eq_of_mnemonic hq hjm)
  · intro w b h
    obtain ⟨-, rfl⟩ := decode_eq_command_iff.mp h
    exact (fField_packFields ..).symm
  · intro w v h k hk
    obtain ⟨-, rfl⟩ := decode_eq_command_iff.mp h
    simp [encode, getLsbD_packFields, byteArg, show k < 16 by omega]
  · intro w b h
    obtain ⟨-, rfl⟩ := decode_eq_command_iff.mp h
    exact (fField_packFields ..).symm
  · intro w b h
    obtain ⟨-, rfl⟩ := decode_eq_command_iff.mp h
    exact (fField_packFields ..).symm
  · intro w p b h
    obtain ⟨hwf, rfl⟩ := decode_eq_command_iff.mp h
    refine ⟨(fField_packFields ..).symm, ?_⟩
    rw [← sext16_argField, encode, argField_packFields, sext16_pinArg p (wellFormed_sWrite_iff.mp hwf)]

/-! ## Illegal words (R65) -/

/-- R65 in terms of the word's fields. -/
theorem wordIsIllegal_iff_fields (w : Word) (l : LayerName) :
    WordIsIllegal w l ↔
      ((opField w).toNat = 0 ∨ 10 ≤ (opField w).toNat) ∨ rsvField w ≠ 0 ∨
      (fField w = true ∧ (opField w).toNat ∈ [2, 3, 5, 6, 8]) ∨
      (argField w ≠ 0 ∧ (opField w).toNat ∈ [1, 3, 4, 5, 6, 7, 8]) ∨
      (argHigh (argField w) ≠ 0 ∧ (opField w).toNat = 2) ∨
      (l = .stateful ∧ (opField w).toNat ≤ 7) ∨ (l = .protocol ∧ 8 ≤ (opField w).toNat) := by
  simp only [WordIsIllegal, ← opField_toNat, ← rsvField_toNat, ← argField_toNat, ← argHigh_toNat, ne_eq,
    BitVec.toNat_eq, BitVec.toNat_ofNat, BitVec.ofNat_eq_ofNat, Nat.zero_mod, fField]

/-- A word that is no command is illegal in either layer: each refusal of the decoder is one of R65 (a) to (e). -/
theorem wordIsIllegal_of_decode_illegal {w : Word} {why : Illegal} (h : decode w = .illegal why) (l : LayerName) :
    WordIsIllegal w l := by
  rw [wordIsIllegal_iff_fields]
  obtain ⟨hr, -⟩ | ⟨-, hf⟩ := requireZero_eq_illegal_iff.mp h
  · exact .inr (.inl hr)
  · unfold decodeFields at hf
    split at hf <;> rename_i hk <;>
      simp only [requireZero_eq_illegal_iff, requireNoBoolean_eq_illegal_iff, Decoded.illegal.injEq, reduceCtorEq,
        and_false, or_false] at hf
    case h_1 | h_4 | h_7 => exact .inr (.inr (.inr (.inl ⟨hf.1, by simp [hk]⟩)))
    case h_2 =>
      obtain ⟨hbool, -⟩ | ⟨-, harg, -⟩ := hf
      · exact .inr (.inr (.inl ⟨hbool, by simp [hk]⟩))
      · exact .inr (.inr (.inr (.inr (.inl ⟨harg, hk⟩))))
    case h_3 | h_5 | h_6 | h_8 =>
      obtain ⟨hbool, -⟩ | ⟨-, harg, -⟩ := hf
      · exact .inr (.inr (.inl ⟨hbool, by simp [hk]⟩))
      · exact .inr (.inr (.inr (.inl ⟨harg, by simp [hk]⟩)))
    case h_10 =>
      simp only [imp_false] at *
      exact .inl (by omega)

/-- A word that decodes to a command is illegal exactly in the other layer: of R65 only (f) is left. -/
theorem wordIsIllegal_iff_of_decode_command {w : Word} {i : Instr} (h : decode w = .command i) (l : LayerName) :
    WordIsIllegal w l ↔ i.layer ≠ l := by
  obtain ⟨-, rfl⟩ := decode_eq_command_iff.mp h
  rw [wordIsIllegal_iff_fields]
  cases i <;> cases l <;> simp [encode, Instr.layer, argHigh_byteArg]

end Sys2Proof

namespace Sys2Proof.Machine

/-! ## Which commands a build accepts (R66) -/

theorem exec_of_otherLayer {i : Instr} {s : State} (hb : buildLegal s.build = true)
    (hl : i.layer ≠ layerName s.build.layer) : exec i s = .refused .otherLayer := by
  obtain ⟨hi, run, hrun⟩ | ⟨hi, run, hrun⟩ := exec_eq_guarded i s
  · cases hs : s.build.layer with
    | protocol => exact absurd (by rw [hi, hs]; rfl) hl
    | stateful n => simp [hrun, inProtocolBuild, hb, hs]
  · cases hs : s.build.layer with
    | protocol => simp [hrun, inStatefulBuild, hb, hs]
    | stateful n => exact absurd (by rw [hi, hs]; rfl) hl

/-- Settles O8: the guard of a command's layer lets its own builds through and no other. -/
theorem layerLegality : Obligations.LayerLegality :=
  fun _ _ hb => ⟨exec_completes hb, exec_of_otherLayer hb⟩

theorem step_of_illegal_word {s : State} {w : Word} {rest : List HostInput} {why : Illegal}
    (hb : buildLegal s.build = true) (hh : s.host = .command w :: rest) (hd : decode w = .illegal why) :
    step s = .refused (.illegalWord why) := by
  simp [step, presented, hb, hh, hd]

/-- Settles O5: the decoder refuses the words of R65 (a) to (e), and the guard of a command's layer those of (f). -/
theorem illegalWordsAreTheRefusedOnes : Obligations.IllegalWordsAreTheRefusedOnes := by
  intro s w rest hb hh
  cases hd : decode w with
  | command i =>
    rw [stepRunsPresentedCommand s w rest i hb hh hd, wordIsIllegal_iff_of_decode_command hd, not_not]
    exact ⟨fun hl => ⟨_, exec_of_otherLayer (s := { s with host := rest }) hb hl⟩,
      exec_completes (s := { s with host := rest }) hb⟩
  | illegal why =>
    exact ⟨fun _ => ⟨_, step_of_illegal_word hb hh hd⟩, fun h => absurd (wordIsIllegal_of_decode_illegal hd _) h⟩

end Sys2Proof.Machine
end

section
/-! Proofs of the protocol family (40_protocol.md): what each Protocol-layer command issues, answers and makes of the line
registers and the reference chain, and on what its trace depends. -/

namespace Sys2Proof.Machine

/-! ## A command of the Protocol layer as its events -/

theorem layerName_of_protocolBuild {s : State} (hp : ProtocolBuild s) : layerName s.build.layer = .protocol := by
  rw [hp]; rfl

theorem buildLegal_of_protocolBuild {s : State} (hp : ProtocolBuild s) : buildLegal s.build = true := by
  simp only [buildLegal, hp]

theorem commandShadow_of_protocol {i : Instr} (hi : i.layer = .protocol) (s : State) :
    commandShadow i s = s.shadow := by
  cases i with
  | sClear => cases hi
  | sWrite pin x => cases hi
  | _ => rfl

/-- A Protocol-layer command in a `PROTOCOL` build completes with the effects of its events and its response, and with
nothing else: no direction and no shadow byte changes (R22, R80 to R87). -/
theorem exec_protocol {i : Instr} {s : State} {es : List Event} (hi : i.layer = .protocol) (hp : ProtocolBuild s)
    (hes : commandEvents i s = es) :
    exec i s = .next { s with
      lvl := es.foldl levelsAfter s.lvl
      chain := s.chain.map (chainRun s.build es s.dir s.lvl)
      trace := s.trace ++ es
      responses := s.responses ++ commandResponses i s
      gets := es.foldl getsAfter s.gets } := by
  obtain ⟨t, ht⟩ := exec_completes (i := i) (buildLegal_of_protocolBuild hp)
    (hi.trans (layerName_of_protocolBuild hp).symm)
  obtain ⟨-, -, rfl⟩ := exec_next i s t ht
  have hdir : es.foldl dirsAfter s.dir = s.dir :=
    foldl_dirsAfter_of_commandMayIssue (hes ▸ commandMayIssue_commandEvents i s) s.dir
  rw [ht, hes, issueAll_eq, commandShadow_of_protocol hi, hdir]

/-- The same for a command that answers nothing and samples nothing. -/
theorem exec_protocol_silent {i : Instr} {s : State} {es : List Event} (hi : i.layer = .protocol) (hp : ProtocolBuild s)
    (hes : commandEvents i s = es) (hr : commandResponses i s = []) (hg : es.foldl getsAfter s.gets = s.gets) :
    exec i s = .next { s with
      lvl := es.foldl levelsAfter s.lvl
      chain := s.chain.map (chainRun s.build es s.dir s.lvl)
      trace := s.trace ++ es } := by
  rw [exec_protocol hi hp hes, hr, hg, List.append_nil]

/-- What a list of events makes of whatever chain is attached, from what it makes of every chain. -/
theorem map_chainRun_congr {b : Build} {es : List Event} {d : Dirs} {v : Levels} {f : Chain → Chain}
    (h : ∀ c, chainRun b es d v c = f c) (oc : Option Chain) : oc.map (chainRun b es d v) = oc.map f :=
  congrArg (Option.map · oc) (funext h)

/-- Events that leave every chain alone leave the one attached alone, if there is one. -/
theorem map_chainRun_eq_self {b : Build} {es : List Event} {d : Dirs} {v : Levels}
    (h : ∀ c, chainRun b es d v c = c) (oc : Option Chain) : oc.map (chainRun b es d v) = oc :=
  (map_chainRun_congr h oc).trans Option.map_id_apply

/-- A command that issues no event and answers nothing does nothing at all. -/
theorem exec_protocol_of_no_events {i : Instr} {s : State} (hi : i.layer = .protocol) (hp : ProtocolBuild s)
    (hes : commandEvents i s = []) (hr : commandResponses i s = []) : exec i s = .next s := by
  rw [exec_protocol_silent hi hp hes hr rfl]
  rw [map_chainRun_eq_self (fun _ => rfl), List.append_nil]; rfl

/-! ## Pushing (R80, R81) -/

/-- Whether `clear` is driven low depends on no other level (R51). -/
theorem clearLow_congr {v v' : Levels} (h : v'.clear = v.clear) (b : Build) (d : Dirs) :
    clearLow b d v' = clearLow b d v := by
  unfold clearLow pad
  simp only [drivenLine, levelOf, h]

/-- A clock already high gives no edge, so the push shifts nothing (R80). -/
theorem chainRun_pushBit_of_clock_high {b : Build} {d : Dirs} {v : Levels} (hk : v.clock = true)
    (hlow : clearLow b d v = false) (x : Bool) (c : Chain) : chainRun b (pushBitTrace x) d v c = c := by
  have hheld : ∀ v', v'.clear = v.clear → ∀ k, chainHeld b d v' k = k := fun v' h k =>
    chainHeld_of_not_clearLow ((clearLow_congr h b d).trans hlow) k
  simp [chainRun, pushBitTrace, chainAfter, chainEdge, dirsAfter, levelsAfter, setLevel, hk, hheld]

/-- Settles O12: the command is the trace of R80, of which the chain makes one shift or, with the clock already high, none. -/
theorem pushBitShiftsOneBit : Obligations.PushBitShiftsOneBit := by
  intro b s hp
  refine ⟨_, exec_protocol_silent rfl hp rfl rfl rfl, ?_, ?_⟩
  · rintro ⟨hk, -, hc, -⟩
    exact map_chainRun_congr (chainRun_pushBit s.build s.dir s.lvl b · hk hc) s.chain
  · intro hk hlow
    exact map_chainRun_eq_self (chainRun_pushBit_of_clock_high hk hlow b) s.chain

/-- Settles O13: the command pushes the byte's bits from bit 7 down, and they end in the stages in the opposite order. -/
theorem pushByteShiftsMostSignificantFirst : Obligations.PushByteShiftsMostSignificantFirst := by
  intro v s hp
  refine ⟨_, exec_protocol_silent rfl hp rfl rfl rfl, ?_⟩
  rintro ⟨hk, -, hc, -⟩
  exact map_chainRun_congr (chainRun_pushes s.build s.dir (bitsMsbFirst v) s.lvl · hk hc) s.chain

/-! ## Reading (R82 to R84) -/

theorem commandEvents_readBit_of_dataOut {s : State} (hd : s.build.hasDout = true) :
    commandEvents .readBit s = [.get (dataOutNow s)] := by
  simp [commandEvents, hd]

theorem commandEvents_readBit_of_no_dataOut {s : State} (hd : s.build.hasDout = false) :
    commandEvents .readBit s = [] := by
  simp [commandEvents, hd]

/-- Settles O14: the command is one `Get`, which moves no chain, or nothing where the line is absent. -/
theorem readBitSamplesOnce : Obligations.ReadBitSamplesOnce := by
  intro s hp
  constructor
  · intro hd
    have hresp : commandResponses .readBit s = [if dataOutNow s then 1 else 0] := by simp [commandResponses, hd, zext8]
    refine ⟨_, hresp ▸ exec_protocol rfl hp (commandEvents_readBit_of_dataOut hd), ?_, fun k h hk =>
      dataOutNow_of_chain hk h⟩
    rintro ⟨-, -, hc, -⟩
    exact map_chainRun_eq_self (chainRun_get s.build s.dir s.lvl _ · hc) s.chain
  · intro hd
    have hresp : commandResponses .readBit s = [0] := by simp [commandResponses, hd, zext8]
    rw [exec_protocol rfl hp (commandEvents_readBit_of_no_dataOut hd), hresp,
      map_chainRun_eq_self (fun _ => rfl), List.append_nil]
    rfl

/-- Everything `READBYTE` does, from the bits it reads (R83, R84). -/
theorem exec_readByte {s : State} (hp : ProtocolBuild s) (pb : Bool) :
    exec (.readByte pb) s = .next { s with
      lvl := { s.lvl with data := pb && (readsOf pb 8 s).getD 7 false, clock := false }
      chain := s.chain.map (chainRun s.build
        ((readsOf pb 8 s).flatMap (readIterationTrace s.build.hasDout pb)) s.dir s.lvl)
      trace := s.trace ++ (readsOf pb 8 s).flatMap (readIterationTrace s.build.hasDout pb)
      responses := s.responses ++ [BitVec.ofNat 8 (readValue (readsOf pb 8 s))]
      gets := s.gets + (if s.build.hasDout then 8 else 0) } := by
  have hlen : (readsOf pb 8 s).length = 8 := readsOf_length pb 8 s
  have hne : readsOf pb 8 s ≠ [] := List.ne_nil_of_length_pos (by omega)
  have hlast : (readsOf pb 8 s).getLast hne = (readsOf pb 8 s).getD 7 false := by
    simp [List.getLast_eq_getElem, hlen]
  rw [exec_protocol rfl hp rfl]
  simp only [commandEvents, commandResponses, levels_reads _ _ _ _ hne, gets_reads, hlast, hlen]

/-- The chain after `READBYTE` has the bits read, or zeros, pushed in front (R83). -/
theorem map_chainRun_reads {s : State} (hq : Quiescent s) (pb : Bool) (rs : List Bool) :
    s.chain.map (chainRun s.build (rs.flatMap (readIterationTrace s.build.hasDout pb)) s.dir s.lvl) =
      s.chain.map (pushStages (rs.map (pb && ·)).reverse) := by
  obtain ⟨hk, -, hc, -⟩ := hq
  exact map_chainRun_congr (chainRun_reads s.build s.dir s.build.hasDout pb rs s.lvl · hk hc) s.chain

/-- With no `dataOut` line every bit read is the sentinel 0 (R82). -/
theorem readsOf_of_no_dataOut (pb : Bool) (k : Nat) {s : State} (hd : s.build.hasDout = false) :
    readsOf pb k s = List.replicate k false := by
  induction k generalizing s with
  | zero => rfl
  | succ k ih => rw [readsOf, ih (by simpa using hd), hd]; rfl

/-- With nothing assumed of the environment the bits read are its levels at successive samples (R27). -/
theorem readsOf_of_no_chain (pb : Bool) (k : Nat) {s : State} (hd : s.build.hasDout = true) (hc : s.chain = none) :
    readsOf pb k s = (List.range k).map fun j => Config.dataOutLevel (s.gets + j) := by
  induction k generalizing s with
  | zero => rfl
  | succ k ih =>
    have hnext : ∀ r, readsOf pb k (issueAll (readIterationTrace true pb r) s) =
        (List.range k).map fun j => Config.dataOutLevel (s.gets + (j + 1)) := fun r =>
      (ih (by simpa using hd) (by simp [hc])).trans
        (by simp [readIterationTrace, pushBitTrace, getsAfter, Nat.add_assoc, Nat.add_comm 1])
    rw [readsOf, hd, hnext, List.range_succ_eq_map, List.map_cons, List.map_map, dataOutNow_of_no_chain hc]
    rfl

/-- Settles O16: the bits are those of `readsOf`, whose events and response `exec_readByte` gives. -/
theorem readByteReadsThenPushes : Obligations.ReadByteReadsThenPushes := fun pb s hp =>
  ⟨readsOf pb 8 s, _, readsOf_length pb 8 s, exec_readByte hp pb, readsOf_of_no_dataOut pb 8,
    fun hq => map_chainRun_reads hq pb _⟩

/-- Settles O17: each iteration samples once, so the count rises by one from bit to bit. -/
theorem readByteTakesWhatEnvironmentPresents : Obligations.ReadByteTakesWhatEnvironmentPresents := by
  intro pb s hp hd hc
  refine ⟨_, exec_readByte hp pb, by simp [hc], by simp [hd], ?_⟩
  rw [← readsOf_of_no_chain pb 8 hd hc]

/-! ## Reading a chain (R52, R83) -/

/-- The j-th bit that repeated reads take from shift stages: with push-back the stages turn, without they drain to 0. -/
def bitPresented (pushBack : Bool) (sr : List Bool) (j : Nat) : Option Bool :=
  if pushBack then sr[sr.length - 1 - j % sr.length]?
  else if j < sr.length then sr[sr.length - 1 - j]? else some false

theorem bitPresented_zero (pb : Bool) (xs : List Bool) (x : Bool) : bitPresented pb (xs ++ [x]) 0 = some x := by
  simp [bitPresented]

/-- What is presented next is what a shifted chain presents now, the last stage's bit (or 0) having come in front. -/
theorem bitPresented_succ (pb : Bool) (xs : List Bool) (x : Bool) (j : Nat) :
    bitPresented pb (xs ++ [x]) (j + 1) = bitPresented pb ((pb && x) :: xs) j := by
  have hmove : ∀ m < xs.length, (xs ++ [x])[m]? = ((pb && x) :: xs)[m + 1]? := fun m hm => by
    simp [List.getElem?_append_left hm]
  have hlen : ((pb && x) :: xs).length = xs.length + 1 := rfl
  have hlen' : (xs ++ [x]).length = xs.length + 1 := List.length_append
  unfold bitPresented
  rw [hlen, hlen', Nat.add_sub_cancel]
  cases pb with
  | true =>
    have hlt : j % (xs.length + 1) < xs.length + 1 := Nat.mod_lt _ (Nat.succ_pos _)
    rw [if_pos rfl, if_pos rfl, ← Nat.mod_add_mod]
    generalize j % (xs.length + 1) = i at hlt ⊢
    obtain hlt | rfl := Nat.lt_succ_iff_lt_or_eq.1 hlt
    · have hidx : xs.length - i = xs.length - (i + 1) + 1 := by omega
      rw [Nat.mod_eq_of_lt (Nat.succ_lt_succ hlt), hmove _ (by omega), hidx]
    · simp
  | false =>
    obtain hlt | rfl | hgt := Nat.lt_trichotomy j xs.length
    · have hidx : xs.length - j = xs.length - (j + 1) + 1 := by omega
      simp only [hidx, ← hmove (xs.length - (j + 1)) (by omega)]
      simp [hlt, Nat.lt_succ_of_lt hlt]
    · simp
    · simp [show ¬ j < xs.length by omega, show ¬ j < xs.length + 1 by omega]

/-- A push on a chain of at least one stage: the last stage is lost. -/
theorem pushStages_singleton_sr {c : Chain} {xs : List Bool} {x : Bool} (h : c.sr = xs ++ [x]) (y : Bool) :
    (pushStages [y] c).sr = y :: xs := by
  simp [pushStages, h]

/-- The j-th bit read of a chain is the one that its shift stages present at the j-th read. -/
theorem readsOf_getElem? (pb : Bool) {k j : Nat} (hj : j < k) {s : State} {c : Chain} (hd : s.build.hasDout = true)
    (hk : s.lvl.clock = false) (hclear : s.build.hasClear = true → s.lvl.clear = true) (hc : s.chain = some c)
    (hne : c.sr ≠ []) : (readsOf pb k s)[j]? = bitPresented pb c.sr j := by
  induction k generalizing j s c with
  | zero => exact absurd hj (Nat.not_lt_zero j)
  | succ k ih =>
    obtain hnil | ⟨xs, x, hsr⟩ := List.eq_nil_or_concat' c.sr
    · exact absurd hnil hne
    have hnow : (s.build.hasDout && dataOutNow s) = x := by
      simp [hd, dataOutNow_of_chain hc hne, hsr]
    rw [readsOf, hnow, hsr]
    cases j with
    | zero => rw [bitPresented_zero, List.getElem?_cons_zero]
    | succ j =>
      have hlvl := levels_reads s.build.hasDout pb [x] s.lvl (by simp)
      have hchain := chainRun_reads s.build s.dir s.build.hasDout pb [x] s.lvl c hk hclear
      rw [List.flatMap_singleton] at hlvl hchain
      have hpushed := pushStages_singleton_sr hsr (pb && x)
      rw [List.getElem?_cons_succ, bitPresented_succ, ← hpushed]
      refine ih (Nat.lt_of_succ_lt_succ hj) ?_ ?_ ?_ ?_ ?_
      · simpa using hd
      · simp [hlvl]
      · simpa [hlvl] using hclear
      · simpa [hc] using hchain
      · simp [hpushed]

/-- Settles O18: `readsOf_getElem?` says which bits are read, `map_chainRun_reads` what the chain becomes. -/
theorem readByteReadsLastStages : Obligations.ReadByteReadsLastStages := by
  intro pb s c hp hd hq hc hlen
  have hne : c.sr ≠ [] := List.ne_nil_of_length_pos hlen
  refine ⟨_, readsOf pb 8 s, exec_readByte hp pb, readsOf_length pb 8 s, rfl, ?_, fun j hj => ?_⟩
  · rw [map_chainRun_reads hq, hc]; rfl
  · obtain ⟨hk, -, hclear, -⟩ := hq
    exact readsOf_getElem? pb hj hd hk hclear hc hne

/-! ## `CLEAR` (R85) -/

/-- Where the `clear` line is an output, the chain is being cleared exactly while the level is low (R51). -/
theorem clearLow_of_output {b : Build} {d : Dirs} (hb : b.hasClear = true) (hd : d.clear = .output) (v : Levels) :
    clearLow b d v = !v.clear := by
  have hpad : pad d v .clear = some v.clear := pad_of_output (l := .clear) hd v
  cases hv : v.clear <;> simp [clearLow, hb, hpad, hv]

/-- A low pulse on `clear` zeroes the shift stages and keeps the storage register (R51, R85). -/
theorem chainRun_clearTrace {b : Build} {d : Dirs} (hb : b.hasClear = true) (hd : d.clear = .output) (v : Levels)
    (c : Chain) : chainRun b clearTrace d v c = clearStages c := by
  simp [chainRun, clearTrace, chainAfter, chainEdge, chainHeld, dirsAfter, levelsAfter, setLevel,
    clearLow_of_output hb hd, clearStages]

/-- Settles O19: with the line the command is the clear pulse, without it there is no event. -/
theorem clearZeroesShiftStagesOnly : Obligations.ClearZeroesShiftStagesOnly := by
  intro s hp
  constructor
  · intro hb
    have hes : commandEvents .clear s = clearTrace := by simp [commandEvents, hb]
    refine ⟨_, exec_protocol_silent rfl hp hes rfl rfl, fun hdirs => ?_⟩
    have hd : s.dir.clear = .output := by simp [hdirs, resetDirs, hb]
    exact map_chainRun_congr (chainRun_clearTrace hb hd s.lvl) s.chain
  · intro hb
    have hes : commandEvents .clear s = [] := by simp [commandEvents, hb]
    exact exec_protocol_of_no_events rfl hp hes rfl

/-! ## `SHOW` (R86) -/

/-- With `clear` inactive a high pulse on a low latch is one transfer to the storage register (R50, R86). -/
theorem chainRun_showTrace {b : Build} {v : Levels} (hl : v.latch = false) (hc : b.hasClear = true → v.clear = true)
    (d : Dirs) (c : Chain) : chainRun b showTrace d v c = latchStages c := by
  have hheld : ∀ v', v'.clear = v.clear → ∀ k, chainHeld b d v' k = k := fun v' h k =>
    chainHeld_of_not_clearLow (clearLow_eq_false (h ▸ hc) d) k
  simp [chainRun, showTrace, chainAfter, chainEdge, dirsAfter, levelsAfter, setLevel, hl, hheld]

/-- Settles O20: the command is the latch pulse. -/
theorem showTransfersAllStages : Obligations.ShowTransfersAllStages := by
  intro s hp
  refine ⟨_, exec_protocol_silent rfl hp rfl rfl rfl, ?_⟩
  rintro ⟨-, hl, hc, -⟩
  exact map_chainRun_congr (chainRun_showTrace hl hc s.dir) s.chain

/-! ## `SETOE` (R87) -/

/-- With the directions of reset the outputs are enabled exactly where the line is absent or low (R53). -/
theorem outputsEnabled_of_dirsConfigured {s : State} (hdirs : DirsConfigured s) :
    outputsEnabled s = (!s.build.hasOe || !s.lvl.outputEnable) := by
  unfold outputsEnabled
  cases ho : s.build.hasOe with
  | false => rfl
  | true =>
    have hdir : s.dir.outputEnable = .output := by simp [hdirs, resetDirs, ho]
    have hpad : pad s.dir s.lvl .outputEnable = some s.lvl.outputEnable :=
      pad_of_output (l := .outputEnable) hdir s.lvl
    cases hv : s.lvl.outputEnable <;> simp [hpad, hv]

theorem chainOutputs_of_enabled {s : State} (h : outputsEnabled s = true) : chainOutputs s = s.chain.map Chain.st := by
  simp [chainOutputs, h]

/-- An event on `outputEnable` does not reach the chain's registers (R49 to R51, R53). -/
theorem chainRun_setOutputEnable {b : Build} {v : Levels} (hc : b.hasClear = true → v.clear = true) (d : Dirs)
    (x : Bool) (c : Chain) : chainRun b [.set .outputEnable x] d v c = c :=
  chainHeld_of_not_clearLow (clearLow_eq_false hc d) c

/-- Settles O21: the one event sets the level that `outputsEnabled` asks for, and without the line there is no event. -/
theorem setOeDrivesTheNegation : Obligations.SetOeDrivesTheNegation := by
  rintro b s hp hdirs ⟨-, -, hc, -⟩
  constructor
  · intro ho
    have hes : commandEvents (.setOe b) s = [.set .outputEnable (!b)] := by simp [commandEvents, ho]
    have hx := exec_protocol_silent rfl hp hes rfl rfl
    rw [map_chainRun_eq_self (chainRun_setOutputEnable hc s.dir _)] at hx
    have henabled : outputsEnabled { s with
        lvl := { s.lvl with outputEnable := !b }
        trace := s.trace ++ [.set .outputEnable (!b)] } = b := by
      refine (outputsEnabled_of_dirsConfigured ?_).trans ?_
      · exact hdirs
      · simp [ho]
    exact ⟨_, hx, rfl, henabled, fun hb => chainOutputs_of_enabled (henabled.trans hb)⟩
  · intro ho
    have hes : commandEvents (.setOe b) s = [] := by simp [commandEvents, ho]
    have henabled : outputsEnabled s = true := by simp [outputsEnabled_of_dirsConfigured hdirs, ho]
    exact ⟨exec_protocol_of_no_events rfl hp hes rfl, henabled, chainOutputs_of_enabled henabled⟩

/-! ## What a trace depends on (R88) -/

/-- The two states' reads give the same bits, however many there are. -/
def ReadAlike (s s' : State) : Prop := ∀ pb k, readsOf pb k s = readsOf pb k s'

theorem readAlike_of_no_dataOut {s s' : State} (hd : s.build.hasDout = false) (hd' : s'.build.hasDout = false) :
    ReadAlike s s' := fun pb k => by
  rw [readsOf_of_no_dataOut pb k hd, readsOf_of_no_dataOut pb k hd']

theorem readAlike_of_no_chain {s s' : State} (hb : s.build = s'.build) (hc : s.chain = none) (hc' : s'.chain = none)
    (hg : s.gets = s'.gets) : ReadAlike s s' := by
  cases hd : s.build.hasDout with
  | false => exact readAlike_of_no_dataOut hd (hb ▸ hd)
  | true => intro pb k; rw [readsOf_of_no_chain pb k hd hc, readsOf_of_no_chain pb k (hb ▸ hd) hc', hg]

/-- The bit of `READBIT` is the first that `READBYTE` would read. -/
theorem ReadAlike.sample {s s' : State} (h : ReadAlike s s') :
    (s.build.hasDout && dataOutNow s) = (s'.build.hasDout && dataOutNow s') :=
  (List.cons.inj (h false 1)).1

/-- In one build a Protocol-layer command issues the same events from any two states that read alike, and from any two at
all if it does not read. -/
theorem commandEvents_congr {i : Instr} {s s' : State} (hi : i.layer = .protocol) (hb : s.build = s'.build)
    (h : (∀ pb, i ≠ .readBit ∧ i ≠ .readByte pb) ∨ ReadAlike s s') : commandEvents i s = commandEvents i s' := by
  cases i with
  | readBit =>
    obtain h | h := h
    · exact absurd rfl (h false).1
    · cases hd : s.build.hasDout with
      | false => rw [commandEvents_readBit_of_no_dataOut hd, commandEvents_readBit_of_no_dataOut (hb ▸ hd)]
      | true =>
        have hnow : dataOutNow s = dataOutNow s' := by simpa [← hb, hd] using h.sample
        rw [commandEvents_readBit_of_dataOut hd, commandEvents_readBit_of_dataOut (hb ▸ hd), hnow]
  | readByte pb =>
    obtain h | h := h
    · exact absurd rfl (h pb).2
    · simp only [commandEvents, h pb 8, hb]
  | sClear => cases hi
  | sWrite pin x => cases hi
  | _ => simp only [commandEvents, hb]

/-- Settles O22: each of the three cases makes the events of the two states the same. -/
theorem traceDependsOnOperandAndLines : Obligations.TraceDependsOnOperandAndLines := by
  intro i s s' hi hp hp' hb h
  have hes : commandEvents i s = commandEvents i s' := by
    refine commandEvents_congr hi hb ?_
    obtain hd | hi | ⟨hc, hc', hg⟩ := h
    · exact .inr (readAlike_of_no_dataOut hd (hb ▸ hd))
    · exact .inl hi
    · exact .inr (readAlike_of_no_chain hb hc hc' hg)
  exact ⟨_, _, commandEvents i s, exec_protocol hi hp rfl, exec_protocol hi hp' hes.symm, rfl, rfl⟩

end Sys2Proof.Machine
end

section
/-! Proofs of the stateful family (41_stateful.md): the State-Based Register's commands as bits pushed and then latched, what
they make of the line registers and the reference chain, and the index arithmetic of `SWRITE`. -/

namespace Sys2Proof.Machine

/-! ## The arithmetic of `SWRITE` (R103) -/

theorem pinInRange_iff {n : Nat} {pin : Int} : pinInRange n pin = true ↔ 0 ≤ pin ∧ pin < 8 * (n : Int) := by
  simp [pinInRange]

/-- The byte and the bit of an index that passed the range test recompose it (R103 (b)). -/
theorem pin_eq_pinByte_pinBit {n : Nat} {pin : Int} (h : pinInRange n pin = true) :
    pinByte pin < n ∧ pinBit pin < 8 ∧ pin = 8 * (pinByte pin : Int) + (pinBit pin : Int) := by
  obtain ⟨h0, h1⟩ := pinInRange_iff.1 h
  simp only [pinByte, pinBit]
  omega

theorem bitMask_toNat {k : Nat} (hk : k < 8) : (bitMask k).toNat = 2 ^ k := by
  have hlt : 2 ^ k < 2 ^ 8 := Nat.pow_lt_pow_right (by decide) hk
  rw [bitMask, BitVec.toNat_shiftLeft, BitVec.toNat_ofNat, Nat.one_mod_two_pow_eq_one.2 (by decide), Nat.one_shiftLeft,
    Nat.mod_eq_of_lt hlt]

theorem getLsbD_bitMask {j : Nat} (hj : j < 8) (k : Nat) : (bitMask k).getLsbD j = decide (j = k) := by
  rw [bitMask, BitVec.getLsbD_shiftLeft, BitVec.getLsbD_one, Bool.eq_iff_iff]
  simp only [Bool.and_eq_true, Bool.not_eq_true', decide_eq_true_eq, decide_eq_false_iff_not]
  omega

/-- Setting and clearing carry into no other bit (R103 (d)). -/
theorem getLsbD_assignBit {j : Nat} (hj : j < 8) (v : Byte) (k : Nat) (b : Bool) :
    (assignBit v k b).getLsbD j = if j = k then b else v.getLsbD j := by
  cases b with
  | true =>
    rw [assignBit, if_pos rfl, BitVec.getLsbD_or, getLsbD_bitMask hj]
    split <;> simp [*]
  | false =>
    rw [assignBit, if_neg Bool.false_ne_true, BitVec.getLsbD_and, BitVec.getLsbD_not, getLsbD_bitMask hj]
    split <;> simp [*]

/-- Settles O31: one lemma for each of the four parts. -/
theorem sWriteArithmetic : Obligations.SWriteArithmetic :=
  ⟨fun _ _ => pinInRange_iff, fun _ _ => pin_eq_pinByte_pinBit, fun _ => bitMask_toNat,
    fun v k _ b _ hj => getLsbD_assignBit hj v k b⟩

/-! ## `SWRITE` out of range (R105) -/

theorem pinInRange_eq_false {n : Nat} {pin : Int} (h : pin < 0 ∨ 8 * (n : Int) ≤ pin) : pinInRange n pin = false := by
  rw [Bool.eq_false_iff, ne_eq, pinInRange_iff]
  omega

/-- Settles O30: the range test fails and the body is the identity. -/
theorem sWriteOutOfRangeIsSilent : Obligations.SWriteOutOfRangeIsSilent := by
  intro n pin b s hb h
  have hrun : exec (.sWrite pin b) s = .next (writePin n pin b s) := inStatefulBuild_eq hb _
  rw [hrun, writePin_outOfRange n pin b s (pinInRange_eq_false h)]

/-! ## A command of the State-Based Register as its events -/

theorem buildBytes_of_statefulBuild {n : Nat} {s : State} (hb : StatefulBuild n s) : buildBytes s.build = n := by
  simp [buildBytes, hb.1]

theorem layerName_of_statefulBuild {n : Nat} {s : State} (hb : StatefulBuild n s) :
    layerName s.build.layer = .stateful := by
  rw [hb.1]; rfl

theorem buildLegal_of_statefulBuild {n : Nat} {s : State} (hb : StatefulBuild n s) : buildLegal s.build = true := by
  obtain ⟨hl, h1, h2⟩ := hb
  simp [buildLegal, hl, h1, h2]

/-- Events that sample nothing leave the count of samples as it is (log entry 5). -/
theorem foldl_getsAfter_of_not_isGet {es : List Event} (h : ∀ e ∈ es, e.isGet = false) (k : Nat) :
    es.foldl getsAfter k = k := by
  induction es with
  | nil => rfl
  | cons e es ih =>
    obtain ⟨he, hes⟩ := List.forall_mem_cons.1 h
    have hk : getsAfter k e = k := by
      cases e with
      | get v => cases he
      | _ => rfl
    rw [List.foldl_cons, hk, ih hes]

/-- A command of the State-Based Register in a `STATEFUL` build completes with its write of the shadow buffer and the effects
of its events, and with nothing else: no direction changes, nothing is sampled and nothing answered (R22, R108). -/
theorem exec_stateful {n : Nat} {i : Instr} {s : State} {es : List Event} {shadow : List Byte} (hi : i.layer = .stateful)
    (hb : StatefulBuild n s) (hes : commandEvents i s = es) (hsh : commandShadow i s = shadow) :
    exec i s = .next { s with
      shadow := shadow
      lvl := es.foldl levelsAfter s.lvl
      chain := s.chain.map (chainRun s.build es s.dir s.lvl)
      trace := s.trace ++ es } := by
  obtain ⟨t, ht⟩ := exec_completes (i := i) (buildLegal_of_statefulBuild hb)
    (hi.trans (layerName_of_statefulBuild hb).symm)
  obtain ⟨-, -, rfl⟩ := exec_next i s t ht
  have hmay : ∀ e ∈ es, CommandMayIssue (withoutDoutAndOe s.build) e :=
    hes ▸ commandMayIssue_commandEvents_of_stateful hi s
  have hdir : es.foldl dirsAfter s.dir = s.dir := foldl_dirsAfter_of_commandMayIssue hmay s.dir
  have hgets : es.foldl getsAfter s.gets = s.gets :=
    foldl_getsAfter_of_not_isGet (fun e he => (hmay e he).isGet_eq_false rfl) s.gets
  rw [ht, hes, hsh, commandResponses_of_stateful hi, List.append_nil, issueAll_eq]
  simp only [hdir, hgets]

/-! ## Bits pushed and then latched (R80, R86) -/

/-- The events that load the chain: a push of each bit in wire order, then the latch pulse. -/
def loadTrace (bits : List Bool) : List Event :=
  bits.flatMap pushBitTrace ++ showTrace

theorem foldl_levelsAfter_loadTrace {bits : List Bool} {x : Bool} (h : bits.getLast? = some x) (v : Levels) :
    (loadTrace bits).foldl levelsAfter v = { v with data := x, clock := false, latch := false } := by
  obtain ⟨ys, rfl⟩ := List.getLast?_eq_some_iff.1 h
  rw [loadTrace, List.foldl_append, levels_pushes (ys ++ [x]) v (by simp), List.getLast_append_singleton]
  rfl

/-- Loading a chain whose clock and latch are low and whose clear is inactive shifts the bits in, the one pushed last first,
and copies the stages to the storage register (R44, R49, R50). -/
theorem chainRun_loadTrace {b : Build} {v : Levels} (hk : v.clock = false) (hl : v.latch = false)
    (hc : b.hasClear = true → v.clear = true) (d : Dirs) (bits : List Bool) (c : Chain) :
    chainRun b (loadTrace bits) d v c = latchStages (pushStages bits.reverse c) := by
  have hv : ((bits.flatMap pushBitTrace).foldl levelsAfter v).latch = v.latch ∧
      ((bits.flatMap pushBitTrace).foldl levelsAfter v).clear = v.clear := by
    by_cases hne : bits = []
    · subst hne; exact ⟨rfl, rfl⟩
    · rw [levels_pushes bits v hne]; exact ⟨rfl, rfl⟩
  rw [loadTrace, chainRun_append, dirs_pushes, chainRun_pushes b d bits v c hk hc,
    chainRun_showTrace (hv.1.trans hl) (fun h => hv.2.trans (hc h))]

theorem flatMap_pushByteTrace (bytes : List Byte) :
    bytes.flatMap pushByteTrace = (bytes.flatMap bitsMsbFirst).flatMap pushBitTrace :=
  List.flatMap_assoc.symm

/-- Highest byte first and bit 7 first is the ordered bits backwards (R42, R43, R54). -/
theorem reverse_orderedBits (shadow : List Byte) :
    (orderedBits shadow).reverse = shadow.reverse.flatMap bitsMsbFirst := by
  have hrev : bitsMsbFirst = List.reverse ∘ bitsLsbFirst := rfl
  rw [orderedBits, List.reverse_flatMap, hrev]

/-- A flush loads the ordered bits, the last of them first (R100). -/
theorem flushTrace_eq_loadTrace (shadow : List Byte) : flushTrace shadow = loadTrace (orderedBits shadow).reverse := by
  rw [flushTrace, flatMap_pushByteTrace, ← reverse_orderedBits, loadTrace]

/-- The last bit a flush pushes is logical output 0 (R43). -/
theorem getLast?_reverse_orderedBits {shadow : List Byte} (h : shadow ≠ []) :
    (orderedBits shadow).reverse.getLast? = some (bitOf (shadow.getD 0 0) 0) := by
  rw [List.getLast?_reverse]
  cases shadow with
  | nil => exact absurd rfl h
  | cons v shadow => rfl

/-! ## `SWRITE` with a valid index (R104) -/

theorem commandShadow_sWrite_valid {n : Nat} {s : State} (hb : StatefulBuild n s) {pin : Int}
    (h : pinInRange n pin = true) (b : Bool) :
    commandShadow (.sWrite pin b) s = (writeShadowBit pin b s).shadow := by
  rw [← buildBytes_of_statefulBuild hb] at h
  simp [commandShadow, h]

theorem commandEvents_sWrite_valid {n : Nat} {s : State} (hb : StatefulBuild n s) (hs : ShadowSized s) {pin : Int}
    (h : pinInRange n pin = true) (b : Bool) :
    commandEvents (.sWrite pin b) s = flushTrace (writeShadowBit pin b s).shadow := by
  rw [← buildBytes_of_statefulBuild hb] at h
  have hbytes := shadowBytes_eq ((writeShadowBit_shadow_length pin b s).trans hs)
  simp [commandEvents, h, hbytes]

/-- Settles O29: the command writes one bit and loads the ordered bits of the buffer so written. -/
theorem sWriteSetsOneBitAndFlushes : Obligations.SWriteSetsOneBitAndFlushes := by
  intro n pin b s hb hs h0 h1 old new shadow
  have hpin := pinInRange_iff.2 ⟨h0, h1⟩
  have hshadow : (writeShadowBit pin b s).shadow = shadow := rfl
  have hlen : shadow.length = n := (List.length_set ..).trans (shadow_length_of_shadowSized hb hs)
  have hne : shadow ≠ [] := List.ne_nil_of_length_pos (hlen ▸ hb.2.1)
  have hexec := exec_stateful rfl hb (commandEvents_sWrite_valid hb hs hpin b) (commandShadow_sWrite_valid hb hpin b)
  rw [hshadow, flushTrace_eq_loadTrace, foldl_levelsAfter_loadTrace (getLast?_reverse_orderedBits hne),
    ← flushTrace_eq_loadTrace] at hexec
  refine ⟨_, hexec, ?_⟩
  rintro ⟨hk, hl, hc, -⟩
  refine map_chainRun_congr (fun c => ?_) s.chain
  rw [flushTrace_eq_loadTrace, chainRun_loadTrace hk hl hc, List.reverse_reverse]
  rfl

/-! ## `SCLEAR` (R101) -/

theorem orderedBits_replicate_zero (n : Nat) : orderedBits (List.replicate n 0) = List.replicate (8 * n) false := by
  induction n with
  | zero => rfl
  | succ n ih =>
    have hzero : bitsLsbFirst 0 = List.replicate 8 false := by decide
    rw [List.replicate_succ, orderedBits, List.flatMap_cons, ← orderedBits, ih, hzero,
      List.replicate_append_replicate, Nat.mul_succ, Nat.add_comm]

theorem flushTrace_replicate_zero (n : Nat) :
    flushTrace (List.replicate n 0) = loadTrace (List.replicate (8 * n) false) := by
  rw [flushTrace_eq_loadTrace, orderedBits_replicate_zero, List.reverse_replicate]

/-- The flood pushes 8N zeros (R101). -/
theorem flatten_replicate_pushByteTrace_zero (n : Nat) :
    (List.replicate n (pushByteTrace 0)).flatten = (List.replicate (8 * n) false).flatMap pushBitTrace := by
  have hbits : (List.replicate n (0 : Byte)).flatMap bitsMsbFirst = List.replicate (8 * n) false := by
    rw [← List.reverse_replicate (n := n), ← reverse_orderedBits, orderedBits_replicate_zero, List.reverse_replicate]
  rw [← hbits, ← flatMap_pushByteTrace, List.flatMap_def, List.map_replicate]

/-- With a `clear` line the events are the clear pulse and a load of 8N zeros (R101). -/
theorem clearRegisterTrace_true (n : Nat) :
    clearRegisterTrace true n = clearTrace ++ loadTrace (List.replicate (8 * n) false) := by
  rw [← flushTrace_replicate_zero]; rfl

/-- Without one, the flood and the flush together are a load of 16N zeros (R158). -/
theorem clearRegisterTrace_false (n : Nat) :
    clearRegisterTrace false n = loadTrace (List.replicate (16 * n) false) := by
  have hbits : List.replicate (16 * n) false = List.replicate (8 * n) false ++ List.replicate (8 * n) false := by
    rw [List.replicate_append_replicate]; congr 1; omega
  rw [hbits, loadTrace, List.flatMap_append, List.append_assoc, ← loadTrace, ← flushTrace_replicate_zero,
    ← flatten_replicate_pushByteTrace_zero]
  rfl

theorem foldl_levelsAfter_loadTrace_zeros {m : Nat} (hm : 0 < m) (v : Levels) :
    (loadTrace (List.replicate m false)).foldl levelsAfter v =
      { v with data := false, clock := false, latch := false } :=
  foldl_levelsAfter_loadTrace (by rw [List.getLast?_replicate, if_neg hm.ne']) v

theorem foldl_levelsAfter_clearRegisterTrace {n : Nat} (hn : 1 ≤ n) (hasClear : Bool) (v : Levels) :
    (clearRegisterTrace hasClear n).foldl levelsAfter v =
      { v with data := false, clock := false, latch := false, clear := hasClear || v.clear } := by
  cases hasClear with
  | true =>
    rw [clearRegisterTrace_true, List.foldl_append, foldl_levelsAfter_loadTrace_zeros (by omega)]
    rfl
  | false =>
    rw [clearRegisterTrace_false, foldl_levelsAfter_loadTrace_zeros (by omega)]
    rfl

/-- The hardware clear zeroes every stage; the zeros of the flush change none, and they are latched (R51, R101). -/
theorem chainRun_clearRegisterTrace_of_clear {b : Build} {d : Dirs} {v : Levels} (hb : b.hasClear = true)
    (hd : d.clear = .output) (hk : v.clock = false) (hl : v.latch = false) (n : Nat) (c : Chain) :
    chainRun b (clearRegisterTrace true n) d v c =
      { sr := List.replicate c.sr.length false, st := List.replicate c.sr.length false } := by
  have hlvl : clearTrace.foldl levelsAfter v = { v with clear := true } := rfl
  rw [clearRegisterTrace_true, chainRun_append, chainRun_clearTrace hb hd, hlvl,
    chainRun_loadTrace (v := { v with clear := true }) hk hl (fun _ => rfl)]
  simp [latchStages, pushStages, clearStages]

/-- Settles O27: with the `clear` line the clear pulse and a load of 8N zeros, without it a load of 16N zeros. -/
theorem sClearZeroesAndFlushes : Obligations.SClearZeroesAndFlushes := by
  intro n s hb
  have hbytes := buildBytes_of_statefulBuild hb
  have hes : commandEvents .sClear s = clearRegisterTrace s.build.hasClear n := by rw [commandEvents, hbytes]
  have hsh : commandShadow .sClear s = List.replicate n 0 := by rw [commandShadow, hbytes]
  have hexec := exec_stateful rfl hb hes hsh
  rw [foldl_levelsAfter_clearRegisterTrace hb.2.1] at hexec
  refine ⟨_, hexec, ?_⟩
  rintro ⟨hk, hl, hc, -⟩ hdirs
  refine map_chainRun_congr (fun c => ?_) s.chain
  cases hclear : s.build.hasClear with
  | true =>
    have hd : s.dir.clear = .output := by simp [hdirs, resetDirs, hclear]
    exact chainRun_clearRegisterTrace_of_clear hclear hd hk hl n c
  | false =>
    rw [clearRegisterTrace_false, chainRun_loadTrace hk hl hc, List.reverse_replicate]
    rfl

end Sys2Proof.Machine
end

section
/-! Proofs of the exceptions family (60_exceptions.md): what a step does for each thing the host can present, and that a word
R65 calls illegal is the only one of them that stops a legal build. -/

namespace Sys2Proof.Machine

/-! ## A step without a command word (R132, R145) -/

theorem step_of_idle {s : State} (hb : buildLegal s.build = true) (hh : s.host = []) : step s = .next s := by
  simp [step, presented, hb, hh]

theorem step_of_reset {s : State} {rest : List HostInput} (hb : buildLegal s.build = true)
    (hh : s.host = .reset :: rest) : step s = .next (releaseReset { s with host := rest }) := by
  simp [step, presented, hb, hh, takeInput_of_cons hh]

/-- Settles O7: with an empty stream nothing is presented, and `step` answers the state it was given. -/
theorem idleStepChangesNothing : Obligations.IdleStepChangesNothing :=
  fun _ => step_of_idle

/-! ## What stops a legal build (R65, R120, R126) -/

/-- A command word of the build's own layer runs to completion: none of R65 (a) to (f) applies to it. -/
theorem step_of_command_completes {s : State} {w : Word} {rest : List HostInput} {i : Instr}
    (hb : buildLegal s.build = true) (hh : s.host = .command w :: rest) (hd : decode w = .command i)
    (hl : i.layer = layerName s.build.layer) : ∃ t, step s = .next t :=
  (illegalWordsAreTheRefusedOnes s w rest hb hh).2 fun hw => (wordIsIllegal_iff_of_decode_command hd _).mp hw hl

/-- A legal build that answers no next state was presented an illegal word: with nothing, a reset or any other word at the
head of the stream it would have answered one. -/
theorem exists_illegal_word_of_step_ne_next {s : State} (hb : buildLegal s.build = true) (hs : ∀ t, step s ≠ .next t) :
    ∃ w rest, s.host = .command w :: rest ∧ WordIsIllegal w (layerName s.build.layer) := by
  match hh : s.host with
  | [] => exact absurd (step_of_idle hb hh) (hs _)
  | .reset :: rest => exact absurd (step_of_reset hb hh) (hs _)
  | .command w :: rest =>
    refine ⟨w, rest, rfl, ?_⟩
    by_contra hw
    obtain ⟨t, ht⟩ := (illegalWordsAreTheRefusedOnes s w rest hb hh).2 hw
    exact hs t ht

/-- Settles O10: one clause for each thing the host can present, and the converse from all of them together. -/
theorem onlyIllegalWordsStop : Obligations.OnlyIllegalWordsStop := fun _ hb =>
  ⟨fun hh => ⟨_, step_of_idle hb hh⟩, fun _ hh => ⟨_, step_of_reset hb hh⟩,
    fun _ _ _ => step_of_command_completes hb, exists_illegal_word_of_step_ne_next hb⟩

end Sys2Proof.Machine
end

section
/-! Proofs of the reset and hazards family (70_reset_and_hazards.md): every step leaves a trace of whole pulses, the trace of a
reset, and a reset between commands as a power-up with the chain kept. -/

namespace Sys2Proof.Machine

/-! ## Traces of whole pulses (R150, R151) -/

theorem WellTimed.append {es fs : List Event} (hes : WellTimed es) (hfs : WellTimed fs) : WellTimed (es ++ fs) := by
  induction hes with
  | nil => exact hfs
  | push b rest _ ih => rw [List.append_assoc]; exact .push b _ ih
  | clearPulse rest _ ih => rw [List.append_assoc]; exact .clearPulse _ ih
  | latchPulse rest _ ih => rw [List.append_assoc]; exact .latchPulse _ ih
  | configure l d rest _ ih => exact .configure l d _ ih
  | sample v rest _ ih => exact .sample v _ ih
  | clearInactive rest _ ih => exact .clearInactive _ ih
  | enable v rest _ ih => exact .enable v _ ih

theorem wellTimed_flatMap {α : Type} {f : α → List Event} (h : ∀ a, WellTimed (f a)) (as : List α) :
    WellTimed (as.flatMap f) := by
  induction as with
  | nil => exact .nil
  | cons a as ih => exact (h a).append ih

/-- Events issued only under a condition: where it fails there are none. -/
theorem wellTimed_ite {p : Prop} [Decidable p] {es : List Event} (h : WellTimed es) :
    WellTimed (if p then es else []) := by
  split
  · exact h
  · exact .nil

theorem wellTimed_pushBitTrace (x : Bool) : WellTimed (pushBitTrace x) := .push x [] .nil

theorem wellTimed_clearTrace : WellTimed clearTrace := .clearPulse [] .nil

theorem wellTimed_showTrace : WellTimed showTrace := .latchPulse [] .nil

theorem wellTimed_pushByteTrace (v : Byte) : WellTimed (pushByteTrace v) := wellTimed_flatMap wellTimed_pushBitTrace _

theorem wellTimed_readIterationTrace (hasDout pb r : Bool) : WellTimed (readIterationTrace hasDout pb r) :=
  (wellTimed_ite (.sample r [] .nil)).append (wellTimed_pushBitTrace _)

theorem wellTimed_loadTrace (bits : List Bool) : WellTimed (loadTrace bits) :=
  (wellTimed_flatMap wellTimed_pushBitTrace bits).append wellTimed_showTrace

theorem wellTimed_flushTrace (shadow : List Byte) : WellTimed (flushTrace shadow) := by
  rw [flushTrace_eq_loadTrace]
  exact wellTimed_loadTrace _

/-- Both strategies of `SCLEAR` end in a load of zeros; with the `clear` line a clear pulse comes first (R101). -/
theorem wellTimed_clearRegisterTrace (hasClear : Bool) (n : Nat) : WellTimed (clearRegisterTrace hasClear n) := by
  cases hasClear with
  | true =>
    rw [clearRegisterTrace_true]
    exact wellTimed_clearTrace.append (wellTimed_loadTrace _)
  | false =>
    rw [clearRegisterTrace_false]
    exact wellTimed_loadTrace _

/-- Whatever the command, the operand and the state, its events are whole pulses, samples and an output enable. -/
theorem wellTimed_commandEvents (i : Instr) (s : State) : WellTimed (commandEvents i s) := by
  cases i with
  | pushBit x => exact wellTimed_pushBitTrace x
  | pushByte v => exact wellTimed_pushByteTrace v
  | readBit => exact wellTimed_ite (.sample _ [] .nil)
  | readByte pb => exact wellTimed_flatMap (wellTimed_readIterationTrace s.build.hasDout pb) _
  | clear => exact wellTimed_ite wellTimed_clearTrace
  | showOut => exact wellTimed_showTrace
  | setOe x => exact wellTimed_ite (.enable _ [] .nil)
  | sClear => exact wellTimed_clearRegisterTrace s.build.hasClear _
  | sWrite pin x => exact wellTimed_ite (wellTimed_flushTrace _)

/-- `P_RESET` pulses nothing: it configures, takes `clear` inactive and enables the outputs (R140). -/
theorem wellTimed_protocolResetEvents (b : Build) : WellTimed (protocolResetEvents b) := by
  have hcfgs : WellTimed [.cfg .data .output, .cfg .clock .output, .cfg .latch .output] :=
    .configure _ _ _ (.configure _ _ _ (.configure _ _ _ .nil))
  have hcfg (has : Bool) (l : Line) (d : Direction) : WellTimed (whenPresent has (.cfg l d)) :=
    wellTimed_ite (.configure l d [] .nil)
  exact ((((hcfgs.append (hcfg _ _ _)).append (hcfg _ _ _)).append (hcfg _ _ _)).append
    (wellTimed_ite (.clearInactive [] .nil))).append (wellTimed_ite (.enable false [] .nil))

theorem wellTimed_resetEvents (b : Build) : WellTimed (resetEvents b) := by
  refine (wellTimed_protocolResetEvents b).append ?_
  split
  · exact .nil
  · exact wellTimed_clearRegisterTrace b.hasClear _

theorem releaseReset_trace (s : State) : (releaseReset s).trace = resetEvents s.build := by
  simp [releaseReset_eq]

/-- Settles O40: an idle step adds no event, a reset starts the trace anew with whole pulses, and a command adds whole
pulses. -/
theorem stepKeepsWellTimed : Obligations.StepKeepsWellTimed := by
  intro s t hs h
  obtain ⟨-, ⟨-, rfl⟩ | ⟨rest, -, rfl⟩ | ⟨w, rest, i, -, -, hx⟩⟩ := step_next s t h
  · exact hs
  · rw [releaseReset_trace]
    exact wellTimed_resetEvents s.build
  · obtain ⟨-, -, rfl⟩ := exec_next i _ t hx
    rw [issueAll_trace]
    exact hs.append (wellTimed_commandEvents i _)

/-! ## The trace of a reset (R140, R141) -/

/-- The `Cfg` events of `P_RESET`, in the order of decision D10 (R140). -/
def configureEvents (b : Build) : List Event :=
  [.cfg .data .output, .cfg .clock .output, .cfg .latch .output] ++
  whenPresent b.hasClear (.cfg .clear .output) ++
  whenPresent b.hasDout (.cfg .dataOut .input) ++
  whenPresent b.hasOe (.cfg .outputEnable .output)

theorem protocolResetEvents_eq (b : Build) :
    protocolResetEvents b = configureEvents b ++ whenPresent b.hasClear (.set .clear true) ++
      whenPresent b.hasOe (.set .outputEnable false) := rfl

/-- Settles O46: the order of D10 is one of those the statement leaves open, and the rest of the trace is fixed. -/
theorem resetTrace : Obligations.ResetTrace := by
  intro s
  refine ⟨configureEvents s.build, .refl _, ?_⟩
  rw [releaseReset_trace, resetEvents, protocolResetEvents_eq]
  rfl

/-! ## A reset between commands (R145) -/

/-- A reset samples nothing (R140, R141). -/
theorem isGet_resetEvents (b : Build) : ∀ e ∈ resetEvents b, e.isGet = false := by
  obtain ⟨es, hes, hmay⟩ := resetEvents_eq_append b
  rw [hes]
  exact List.forall_mem_append.2 ⟨isGet_protocolResetEvents b, fun e he => (hmay e he).isGet_eq_false rfl⟩

theorem resetShadow_congr {s s' : State} (hb : s.build = s'.build) (hs : ProtocolBuild s → s.shadow = s'.shadow) :
    resetShadow s = resetShadow s' := by
  unfold resetShadow
  rw [← hb]
  cases hl : s.build.layer with
  | protocol => exact hs hl
  | stateful n => rfl

/-- A reset depends on the build, on the chain and, in a `PROTOCOL` build, on the shadow field, which no step of it writes
there; the host's input and the count of samples it hands on (R32, log entry 5). -/
theorem releaseReset_congr {s s' : State} (hb : s.build = s'.build) (hc : s.chain = s'.chain)
    (hs : ProtocolBuild s → s.shadow = s'.shadow) :
    releaseReset s = { releaseReset s' with host := s.host, gets := s.gets } := by
  rw [releaseReset_eq, releaseReset_eq, issueAll_eq, issueAll_eq, ← hb, ← resetShadow_congr hb hs]
  simp [assertReset, hb, hc, foldl_getsAfter_of_not_isGet (isGet_resetEvents _)]

theorem shadow_eq_nil_of_protocolBuild {s : State} (hs : ShadowSized s) (hp : ProtocolBuild s) : s.shadow = [] :=
  List.eq_nil_of_length_eq_zero (hs.trans (by simp [buildBytes, hp]))

/-- Settles O50: a power-on with the build and the chain of the state presented with reset leads to the same place. -/
theorem laterResetIsPowerUp : Obligations.LaterResetIsPowerUp := by
  intro s rest hb hs hh
  rw [step_of_reset hb hh]
  exact congrArg Host.Outcome.next
    (releaseReset_congr (s' := State.powerOn s.build s.chain) rfl rfl (shadow_eq_nil_of_protocolBuild (s := s) hs))

end Sys2Proof.Machine
end

section
/-! Proofs of how the reference chain reacts to one event (20_memory.md section 4), and that every step keeps what holds of the
controller at a command boundary (10_state.md). -/

namespace Sys2Proof.Machine

/-! ## The chain and one event (R49 to R51) -/

theorem shiftIn_sr_length (x : Bool) (c : Chain) : (shiftIn x c).sr.length = c.sr.length := by
  simp [shiftIn]

/-- A shift moves every stage's bit to the next stage (R49). -/
theorem shiftIn_sr_succ {c : Chain} {j : Nat} (hj : j + 1 < c.sr.length) (x : Bool) :
    (shiftIn x c).sr[j + 1]? = c.sr[j]? := by
  simp [shiftIn, hj]

theorem chainEdge_sr_length (b : Build) (d : Dirs) (v : Levels) (e : Event) (c : Chain) :
    (chainEdge b d v e c).sr.length = c.sr.length := by
  unfold chainEdge
  split
  · split
    · rfl
    · exact shiftIn_sr_length _ c
  · split <;> rfl
  · rfl

/-- A rising clock edge with `clear` inactive is one shift (R49). -/
theorem chainAfter_clockRise {b : Build} {d : Dirs} {v : Levels} (hk : v.clock = false) (hlow : clearLow b d v = false)
    (c : Chain) : chainAfter b d v (.set .clock true) c = shiftIn v.data c := by
  have hafter : clearLow b (dirsAfter d (.set .clock true)) (levelsAfter v (.set .clock true)) = false :=
    (clearLow_congr rfl b d).trans hlow
  rw [chainAfter, chainHeld_of_not_clearLow hafter]
  simp [chainEdge, hk, hlow]

/-- With `clear` inactive a clock set high again, or set low, does nothing to the chain (R49). -/
theorem chainAfter_clock_without_rise {b : Build} {d : Dirs} {v : Levels} {x : Bool} (hx : x = true → v.clock = true)
    (hlow : clearLow b d v = false) (c : Chain) : chainAfter b d v (.set .clock x) c = c := by
  have hafter : clearLow b (dirsAfter d (.set .clock x)) (levelsAfter v (.set .clock x)) = false :=
    (clearLow_congr rfl b d).trans hlow
  rw [chainAfter, chainHeld_of_not_clearLow hafter]
  cases x with
  | true => simp [chainEdge, hx]
  | false => rfl

/-- A rising latch edge copies all stages, whatever else the event does (R50). -/
theorem chainAfter_st_of_latchRise {v : Levels} (hl : v.latch = false) (b : Build) (d : Dirs) (c : Chain) :
    (chainAfter b d v (.set .latch true) c).st = c.sr := by
  rw [chainAfter, chainHeld_st]
  simp [chainEdge, hl, latchStages]

/-- No other event writes the storage register (R50). -/
theorem chainAfter_st_of_no_latchRise {e : Event} {v : Levels} (h : ¬ (e = .set .latch true ∧ v.latch = false))
    (b : Build) (d : Dirs) (c : Chain) : (chainAfter b d v e c).st = c.st := by
  by_cases he : e = .set .latch true
  · subst he
    have hl : v.latch = true := by simpa using h
    rw [chainAfter, chainHeld_st]
    simp [chainEdge, hl]
  · exact chainAfter_st he b d v c

/-- While the `clear` line is driven low every shift stage is 0 (R51). -/
theorem chainAfter_sr_of_clearLow {b : Build} {d : Dirs} {v : Levels} {e : Event}
    (h : clearLow b (dirsAfter d e) (levelsAfter v e) = true) (c : Chain) :
    (chainAfter b d v e c).sr = List.replicate c.sr.length false := by
  simp [chainAfter, chainHeld, h, clearStages, chainEdge_sr_length]

/-- Settles O43: one lemma about `chainAfter` for each clause. -/
theorem chainReactsToEdges : Obligations.ChainReactsToEdges := by
  intro s e c hc
  refine ⟨chainAfter s.build s.dir s.lvl e c, by simp [hc], ?_, ?_, ?_, ?_, ?_, ?_⟩
  · rintro rfl hk hlow
    rw [chainAfter_clockRise hk hlow]
    refine ⟨shiftIn_sr_length _ c, fun h => ?_, fun j hj => shiftIn_sr_succ hj _⟩
    simp [shiftIn]
  · rintro rfl hk hlow
    exact chainAfter_clock_without_rise (fun _ => hk) hlow c
  · rintro rfl hlow
    exact chainAfter_clock_without_rise (fun h => absurd h Bool.false_ne_true) hlow c
  · rintro rfl hl
    exact chainAfter_st_of_latchRise hl s.build s.dir c
  · exact fun h => chainAfter_st_of_no_latchRise h s.build s.dir c
  · exact fun h => chainAfter_sr_of_clearLow h c

/-! ## The width of the chain (R48) -/

theorem chainAfter_sr_length (b : Build) (d : Dirs) (v : Levels) (e : Event) (c : Chain) :
    (chainAfter b d v e c).sr.length = c.sr.length := by
  unfold chainAfter chainHeld
  split <;> simp [clearStages, chainEdge_sr_length]

theorem chainAfter_st_length {c : Chain} (hc : c.st.length = c.sr.length) (b : Build) (d : Dirs) (v : Levels)
    (e : Event) : (chainAfter b d v e c).st.length = c.sr.length := by
  by_cases h : e = .set .latch true ∧ v.latch = false
  · obtain ⟨rfl, hl⟩ := h
    rw [chainAfter_st_of_latchRise hl]
  · rw [chainAfter_st_of_no_latchRise h, hc]

/-- No event changes how many shift stages the chain has. -/
theorem chainRun_sr_length (b : Build) (es : List Event) (d : Dirs) (v : Levels) (c : Chain) :
    (chainRun b es d v c).sr.length = c.sr.length := by
  induction es generalizing d v c with
  | nil => rfl
  | cons e es ih => rw [chainRun, ih, chainAfter_sr_length]

theorem chainRun_st_length {c : Chain} (hc : c.st.length = c.sr.length) (b : Build) (es : List Event) (d : Dirs)
    (v : Levels) : (chainRun b es d v c).st.length = c.sr.length := by
  induction es generalizing d v c with
  | nil => exact hc
  | cons e es ih =>
    have hsr := chainAfter_sr_length b d v e c
    rw [chainRun, ih ((chainAfter_st_length hc b d v e).trans hsr.symm), hsr]

theorem issueAll_keeps_chainSized {s : State} (hs : ChainSized s) (es : List Event) : ChainSized (issueAll es s) := by
  intro k hk
  rw [issueAll_chain, Option.map_eq_some_iff] at hk
  obtain ⟨c, hc, rfl⟩ := hk
  obtain ⟨hst, hsr⟩ := hs c hc
  rw [chainRun_st_length hst, chainRun_sr_length]
  exact ⟨rfl, hsr⟩

/-! ## The levels between commands (R25) -/

/-- Whole pulses leave the clock and the latch low, and `clear` inactive, where they find them so (R150, R151). -/
theorem WellTimed.foldl_levelsAfter {es : List Event} (h : WellTimed es) {v : Levels} :
    (v.clock = false → (es.foldl levelsAfter v).clock = false) ∧
    (v.latch = false → (es.foldl levelsAfter v).latch = false) ∧
    (v.clear = true → (es.foldl levelsAfter v).clear = true) := by
  induction h generalizing v with
  | nil => exact ⟨id, id, id⟩
  | push x rest _ ih =>
    obtain ⟨ihk, ihl, ihc⟩ := @ih { v with data := x, clock := false }
    rw [List.foldl_append, levels_pushBit]
    exact ⟨fun _ => ihk rfl, ihl, ihc⟩
  | clearPulse rest _ ih =>
    obtain ⟨ihk, ihl, ihc⟩ := @ih { v with clear := true }
    exact ⟨ihk, ihl, fun _ => ihc rfl⟩
  | latchPulse rest _ ih =>
    obtain ⟨ihk, ihl, ihc⟩ := @ih { v with latch := false }
    exact ⟨ihk, fun _ => ihl rfl, ihc⟩
  | configure l d rest _ ih => exact @ih v
  | sample x rest _ ih => exact @ih v
  | clearInactive rest _ ih =>
    obtain ⟨ihk, ihl, ihc⟩ := @ih { v with clear := true }
    exact ⟨ihk, ihl, fun _ => ihc rfl⟩
  | enable x rest _ ih => exact @ih { v with outputEnable := x }

/-- A command's pulses are whole, and in a `STATEFUL` build they do not touch `outputEnable`. -/
theorem exec_keeps_quiescent {i : Instr} {s t : State} (hs : Quiescent s) (h : exec i s = .next t) : Quiescent t := by
  obtain ⟨hi, -, rfl⟩ := exec_next i s t h
  obtain ⟨hk, hl, hc, ho⟩ := hs
  obtain ⟨keepk, keepl, keepc⟩ := (wellTimed_commandEvents i s).foldl_levelsAfter (v := s.lvl)
  rw [Quiescent, issueAll_lvl, issueAll_build]
  refine ⟨keepk hk, keepl hl, fun hb => keepc (hc hb), fun hst hb => ?_⟩
  rw [foldl_levelsAfter_outputEnable rfl (commandMayIssue_commandEvents_of_stateful (hi.trans hst) s)]
  exact ho hst hb

/-! ## The shadow buffer (R21) -/

theorem commandShadow_length {s : State} (hs : ShadowSized s) (i : Instr) :
    (commandShadow i s).length = buildBytes s.build := by
  cases i with
  | sClear => simp [commandShadow]
  | sWrite pin x =>
    simp only [commandShadow]
    split
    · rw [writeShadowBit_shadow_length, hs]
    · exact hs
  | _ => exact hs

/-- Only a `PROTOCOL` build keeps what the field held (log entry 9). -/
theorem resetShadow_length {s : State} (hs : ProtocolBuild s → ShadowSized s) :
    (resetShadow s).length = buildBytes s.build := by
  unfold resetShadow
  split
  next hp => exact hs hp
  next n hn => simp [buildBytes, hn]

/-! ## The state once the reset sequence has finished (R33) -/

@[simp] theorem releaseReset_build (s : State) : (releaseReset s).build = s.build := by
  simp [releaseReset_eq]

@[simp] theorem releaseReset_host (s : State) : (releaseReset s).host = s.host := by
  simp [releaseReset_eq]

@[simp] theorem releaseReset_responses (s : State) : (releaseReset s).responses = [] := by
  simp [releaseReset_eq]

@[simp] theorem releaseReset_shadow (s : State) : (releaseReset s).shadow = resetShadow s := by
  simp [releaseReset_eq]

@[simp] theorem releaseReset_gets (s : State) : (releaseReset s).gets = s.gets := by
  simp [releaseReset_eq, foldl_getsAfter_of_not_isGet (isGet_resetEvents _)]

theorem releaseReset_dir (s : State) : (releaseReset s).dir = resetDirs s.build :=
  (releaseReset_silentAndEnabled s).dirs.trans (congrArg resetDirs (releaseReset_build s))

/-- After `P_RESET` the body of `SCLEAR` leaves every level as it was: its pulses are whole (R33, R141). -/
theorem releaseReset_lvl {s : State} (hb : buildLegal s.build = true) : (releaseReset s).lvl = resetLevels s.build := by
  rw [releaseReset_eq, issueAll_lvl, resetEvents, List.foldl_append, assertReset_lvl, protocolReset_levels]
  cases hl : s.build.layer with
  | protocol => rfl
  | stateful n =>
    obtain ⟨hn, -⟩ : 1 ≤ n ∧ n ≤ Config.maxBytes := by simpa [buildLegal, hl] using hb
    refine (foldl_levelsAfter_clearRegisterTrace hn s.build.hasClear _).trans ?_
    simp [resetLevels]

/-- Settles O47: a lemma for each field of the state. -/
theorem resetLeavesTheSpecifiedState : Obligations.ResetLeavesTheSpecifiedState := by
  intro s hb
  refine ⟨releaseReset_dir s, releaseReset_lvl hb, fun n hn => ?_, releaseReset_responses s, releaseReset_build s,
    releaseReset_host s⟩
  simp [resetShadow, hn]

/-! ## The command boundary -/

theorem quiescent_of_resetLevels {s : State} (h : s.lvl = resetLevels s.build) : Quiescent s := by
  rw [Quiescent, h]
  exact ⟨rfl, rfl, id, fun _ _ => rfl⟩

theorem exec_keeps_boundary {i : Instr} {s t : State} (hs : Boundary s) (h : exec i s = .next t) : Boundary t := by
  have hq := exec_keeps_quiescent hs.levels h
  obtain ⟨-, -, rfl⟩ := exec_next i s t h
  refine ⟨?_, hq, ?_, issueAll_keeps_chainSized ?_ _⟩
  · rw [DirsConfigured, issueAll_dir, issueAll_build,
      foldl_dirsAfter_of_commandMayIssue (commandMayIssue_commandEvents i s)]
    exact hs.dirs
  · rw [ShadowSized, issueAll_shadow, issueAll_build]
    exact commandShadow_length hs.shadow i
  · exact hs.chain

/-- A reset gives the directions and the levels of a boundary and keeps the sizes; in a `STATEFUL` build it makes the shadow
buffer, whatever the field held. -/
theorem releaseReset_boundary {s : State} (hb : buildLegal s.build = true) (hs : ProtocolBuild s → ShadowSized s)
    (hc : ChainSized s) : Boundary (releaseReset s) := by
  refine ⟨?_, ?_, ?_, ?_⟩
  · rw [DirsConfigured, releaseReset_dir, releaseReset_build]
  · exact quiescent_of_resetLevels (by rw [releaseReset_lvl hb, releaseReset_build])
  · rw [ShadowSized, releaseReset_shadow, releaseReset_build, resetShadow_length hs]
  · rw [releaseReset_eq]
    refine issueAll_keeps_chainSized ?_ _
    exact hc

/-- Settles O35: an idle step changes nothing, a reset makes a boundary, and a command keeps one. -/
theorem stepKeepsBoundary : Obligations.StepKeepsBoundary := by
  intro s t hs h
  obtain ⟨hb, ⟨-, rfl⟩ | ⟨rest, -, rfl⟩ | ⟨w, rest, i, -, -, hx⟩⟩ := step_next s t h
  · exact hs
  · exact releaseReset_boundary (s := { s with host := rest }) hb (fun _ => hs.shadow) hs.chain
  · exact exec_keeps_boundary (s := { s with host := rest }) ⟨hs.dirs, hs.levels, hs.shadow, hs.chain⟩ hx

end Sys2Proof.Machine
end

section
/-! Proofs of what a flush, `SCLEAR` and a reset make of the shadow buffer and of the reference chain (41_stateful.md sections 1,
2 and 4; 70_reset_and_hazards.md section 1). -/

namespace Sys2Proof.Machine

/-! ## The synchronisation invariant (R54, R106) -/

theorem synced_of_protocolBuild {s : State} (hp : ProtocolBuild s) : Synced s := by
  unfold Synced
  rw [hp]
  trivial

/-- Both registers of the chain begin with the given bits, as far as there are stages. -/
def HoldsBits (bits : List Bool) (c : Chain) : Prop :=
  c.st = c.sr ∧ ∀ p, p < bits.length → p < c.sr.length → c.sr[p]? = bits[p]?

/-- A chain that holds the ordered bits of the shadow buffer is synchronised with it. -/
theorem synced_of_holdsBits {n : Nat} {s : State} (hl : s.build.layer = .stateful n) (hs : s.shadow.length = n)
    (h : ∀ c, s.chain = some c → HoldsBits (orderedBits s.shadow) c) : Synced s := by
  unfold Synced
  rw [hl]
  intro c hc p hp hpc
  obtain ⟨hst, hbits⟩ := h c hc
  rw [orderedBits_eq_map_logicalOutput hs] at hbits
  have hsr : c.sr[p]? = some (logicalOutput s p) := by
    rw [hbits p (by simpa using hp) hpc]
    simp [hp]
  exact ⟨hsr, hst ▸ hsr⟩

theorem holdsBits_pushed (bits sr : List Bool) (w : Nat) :
    HoldsBits bits { sr := (bits ++ sr).take w, st := (bits ++ sr).take w } := by
  refine ⟨rfl, fun p hp hpw => ?_⟩
  have hw : p < w := hpw.trans_le (List.length_take_le _ _)
  simp only [List.getElem?_take, hw, if_true]
  exact List.getElem?_append_left hp

theorem holdsBits_zeros (m w : Nat) : HoldsBits (List.replicate m false)
    { sr := List.replicate w false, st := List.replicate w false } := by
  refine ⟨rfl, fun p hp hpw => ?_⟩
  rw [List.length_replicate] at hp hpw
  rw [List.getElem?_replicate_of_lt hp, List.getElem?_replicate_of_lt hpw]

/-! ## `SCLEAR` (R101, R102) -/

/-- Pushing at least as many zeros as there are stages leaves nothing else in the chain (R158). -/
theorem take_replicate_false_append {m w : Nat} (h : w ≤ m) (sr : List Bool) :
    (List.replicate m false ++ sr).take w = List.replicate w false := by
  rw [List.take_append_of_le_length (by simpa using h), List.take_replicate, Nat.min_eq_left h]

/-- Settles O28: the clear pulse zeroes the stages, and 16N zeros are as many as W <= 8N stages need. -/
theorem clearStrategiesEquivalent : Obligations.ClearStrategiesEquivalent := by
  intro n s hb hq hdirs hw
  obtain ⟨c, hx, hc⟩ := sClearZeroesAndFlushes n s hb
  refine ⟨_, hx, rfl, (hc hq hdirs).trans (Option.map_congr fun k hk => ?_)⟩
  have hk' : k.sr.length ≤ 16 * n := (hw k hk).trans (by omega)
  split
  · rfl
  · rw [take_replicate_false_append hk']

/-- With either strategy `SCLEAR` leaves 8N zeros at the beginning of a chain of any width. -/
theorem exec_sClear_synced {n : Nat} {s : State} (hb : StatefulBuild n s) (hq : Quiescent s) (hdirs : DirsConfigured s) :
    ∃ t, exec .sClear s = .next t ∧ Synced t := by
  obtain ⟨oc, hx, hoc⟩ := sClearZeroesAndFlushes n s hb
  refine ⟨_, hx, synced_of_holdsBits hb.1 (by simp) fun c hc => ?_⟩
  simp only [hoc hq hdirs, Option.map_eq_some_iff] at hc
  obtain ⟨k, -, rfl⟩ := hc
  rw [orderedBits_replicate_zero]
  split
  · exact holdsBits_zeros _ _
  · have hbits : List.replicate (16 * n) false = List.replicate (8 * n) false ++ List.replicate (8 * n) false := by
      rw [List.replicate_append_replicate]; congr 1; omega
    rw [hbits, List.append_assoc]
    exact holdsBits_pushed _ _ _

/-- A valid `SWRITE` leaves the ordered bits of the buffer it flushes at the beginning of the chain. -/
theorem exec_sWrite_synced {n : Nat} {s : State} (hb : StatefulBuild n s) (hq : Quiescent s) (hs : ShadowSized s)
    {pin : Int} (h0 : 0 ≤ pin) (h1 : pin < 8 * n) (b : Bool) : ∃ t, exec (.sWrite pin b) s = .next t ∧ Synced t := by
  obtain ⟨oc, hx, hoc⟩ := sWriteSetsOneBitAndFlushes n pin b s hb hs h0 h1
  refine ⟨_, hx, synced_of_holdsBits hb.1 ?_ fun c hc => ?_⟩
  · exact (List.length_set ..).trans (shadow_length_of_shadowSized hb hs)
  · simp only [hoc hq, Option.map_eq_some_iff] at hc
    obtain ⟨k, -, rfl⟩ := hc
    exact holdsBits_pushed _ _ _

/-- Settles O34: one lemma for each of the two commands. -/
theorem flushSynchronises : Obligations.FlushSynchronises := fun _ _ hb hq hdirs hs =>
  ⟨exec_sClear_synced hb hq hdirs, fun _ b h0 h1 => exec_sWrite_synced hb hq hs h0 h1 b⟩

/-! ## Reset as one `SCLEAR` (R141) -/

/-- The state in which `S_RESET` runs the body of `SCLEAR`: `P_RESET` has finished and the shadow buffer is zeroed. -/
def beforeClear (n : Nat) (s : State) : State :=
  zeroShadow n (protocolReset (assertReset s))

@[simp] theorem beforeClear_build (n : Nat) (s : State) : (beforeClear n s).build = s.build := by
  simp [beforeClear, protocolReset_eq]

theorem beforeClear_dir (n : Nat) (s : State) : (beforeClear n s).dir = resetDirs s.build := by
  simp [beforeClear, protocolReset_eq, protocolReset_dirs]

theorem beforeClear_lvl (n : Nat) (s : State) : (beforeClear n s).lvl = resetLevels s.build := by
  simp [beforeClear, protocolReset_eq, protocolReset_levels]

theorem beforeClear_chain (n : Nat) (s : State) : (beforeClear n s).chain =
    s.chain.map (chainRun s.build (protocolResetEvents s.build) dirsUnconfigured levelsLow) := by
  simp [beforeClear, protocolReset_eq]

theorem beforeClear_statefulBuild {n : Nat} {s : State} (hb : StatefulBuild n s) : StatefulBuild n (beforeClear n s) := by
  rwa [StatefulBuild, beforeClear_build]

theorem beforeClear_dirsConfigured (n : Nat) (s : State) : DirsConfigured (beforeClear n s) := by
  rw [DirsConfigured, beforeClear_dir, beforeClear_build]

theorem beforeClear_quiescent (n : Nat) (s : State) : Quiescent (beforeClear n s) :=
  quiescent_of_resetLevels (by rw [beforeClear_lvl, beforeClear_build])

/-- In a `STATEFUL` build the reset ends with one execution of the body of `SCLEAR` (R141). -/
theorem exec_sClear_beforeClear {n : Nat} {s : State} (hb : StatefulBuild n s) :
    exec .sClear (beforeClear n s) = .next (releaseReset s) := by
  have hreset : releaseReset s = clearRegister n (beforeClear n s) := by
    simp only [releaseReset, hb.1]; rfl
  rw [hreset]
  exact inStatefulBuild_eq (beforeClear_statefulBuild hb) _

/-- A reset synchronises: in a `STATEFUL` build as `SCLEAR` does, in a `PROTOCOL` build there is nothing to synchronise. -/
theorem releaseReset_synced {s : State} (hb : buildLegal s.build = true) : Synced (releaseReset s) := by
  cases hl : layerName s.build.layer with
  | protocol =>
    refine synced_of_protocolBuild ?_
    rw [ProtocolBuild, releaseReset_build]
    exact protocolBuild_of_layerName hl
  | stateful =>
    obtain ⟨n, hn⟩ := exists_statefulBuild_of_layerName hb hl
    obtain ⟨t, ht, hsync⟩ := exec_sClear_synced (beforeClear_statefulBuild hn) (beforeClear_quiescent n s)
      (beforeClear_dirsConfigured n s)
    rw [exec_sClear_beforeClear hn] at ht
    cases ht
    exact hsync

/-! ## Every step keeps the chain synchronised (R106) -/

theorem exec_build {i : Instr} {s t : State} (h : exec i s = .next t) : t.build = s.build := by
  obtain ⟨-, -, rfl⟩ := exec_next i s t h
  exact issueAll_build _ _

/-- The two commands of a `STATEFUL` build either flush or, out of range, change nothing. -/
theorem exec_keeps_synced {i : Instr} {s t : State} (hs : Boundary s) (hsync : Synced s) (h : exec i s = .next t) :
    Synced t := by
  obtain ⟨hi, hb, -⟩ := exec_next i s t h
  cases hl : layerName s.build.layer with
  | protocol => exact synced_of_protocolBuild (protocolBuild_of_layerName (exec_build h ▸ hl))
  | stateful =>
    obtain ⟨n, hn⟩ := exists_statefulBuild_of_layerName hb hl
    cases i with
    | sClear =>
      obtain ⟨t', ht', hsync'⟩ := exec_sClear_synced hn hs.levels hs.dirs
      cases h.symm.trans ht'
      exact hsync'
    | sWrite pin b =>
      obtain ⟨h0, h1⟩ | hout : (0 ≤ pin ∧ pin < 8 * n) ∨ (pin < 0 ∨ 8 * (n : Int) ≤ pin) := by omega
      · obtain ⟨t', ht', hsync'⟩ := exec_sWrite_synced hn hs.levels hs.shadow h0 h1 b
        cases h.symm.trans ht'
        exact hsync'
      · cases h.symm.trans (sWriteOutOfRangeIsSilent n pin b s hn hout)
        exact hsync
    | _ => cases hi.trans hl

/-- Settles O36: an idle step changes nothing, a reset synchronises, and a command keeps the chain synchronised. -/
theorem stepKeepsChainSynchronised : Obligations.StepKeepsChainSynchronised := by
  intro s t hs hsync h
  refine ⟨stepKeepsBoundary s t hs h, ?_⟩
  obtain ⟨hb, ⟨-, rfl⟩ | ⟨rest, -, rfl⟩ | ⟨w, rest, i, -, -, hx⟩⟩ := step_next s t h
  · exact hsync
  · exact releaseReset_synced (s := { s with host := rest }) hb
  · exact exec_keeps_synced (s := { s with host := rest }) ⟨hs.dirs, hs.levels, hs.shadow, hs.chain⟩ hsync hx

/-! ## The chain after a reset (R143, R145) -/

/-- A `STATEFUL` build's reset zeroes a chain of W <= 8N stages, whatever `P_RESET` made of it. -/
theorem releaseReset_chain_stateful {n : Nat} {s : State} {c : Chain} (hb : StatefulBuild n s) (hc : s.chain = some c)
    (hw : c.sr.length ≤ 8 * n) : (releaseReset s).chain =
      some { sr := List.replicate c.sr.length false, st := List.replicate c.sr.length false } := by
  have hbefore := (beforeClear_chain n s).trans (congrArg (Option.map _) hc)
  obtain ⟨t, ht, -, hchain⟩ := clearStrategiesEquivalent n (beforeClear n s) (beforeClear_statefulBuild hb)
    (beforeClear_quiescent n s) (beforeClear_dirsConfigured n s) (by
      intro k hk
      cases hbefore.symm.trans hk
      rwa [chainRun_sr_length])
  rw [exec_sClear_beforeClear hb] at ht
  cases ht
  simp [hchain, hbefore, chainRun_sr_length]

theorem latchRise_not_mem_protocolResetEvents (b : Build) : .set .latch true ∉ protocolResetEvents b := by
  simp [protocolResetEvents, whenPresent]

/-- `P_RESET` raises no latch, so the storage register keeps what it held. -/
theorem releaseReset_chain_protocol {s : State} {c : Chain} (hp : ProtocolBuild s) (hc : s.chain = some c) :
    ∃ sr, (releaseReset s).chain = some { sr := sr, st := c.st } := by
  have hreset : releaseReset s = issueAll (protocolResetEvents s.build) (assertReset s) := by
    simp only [releaseReset, hp, protocolReset_eq, assertReset_build]
  have hst := issueAll_keeps_st (latchRise_not_mem_protocolResetEvents s.build) (assertReset s)
  rw [← hreset, assertReset_chain, hc] at hst
  obtain ⟨k, hk, hkst⟩ := Option.map_eq_some_iff.1 hst
  exact ⟨k.sr, hk.trans (congrArg (fun st => some (Chain.mk k.sr st)) hkst)⟩

/-- Settles O48: one lemma for each layer. -/
theorem resetAndTheChain : Obligations.ResetAndTheChain := fun _ _ hc =>
  ⟨fun _ hb hw => releaseReset_chain_stateful hb hc hw, fun hp => releaseReset_chain_protocol hp hc⟩

/-! ## The model's reset state (R33; log entry 7) -/

theorem reset_trace : State.reset.trace = resetEvents State.reset.build := by
  decide

/-- Two states are the same if each of the nine fields is. -/
theorem state_eq_of_fields {s t : State} (hbuild : s.build = t.build) (hshadow : s.shadow = t.shadow)
    (hdir : s.dir = t.dir) (hlvl : s.lvl = t.lvl) (hchain : s.chain = t.chain) (hhost : s.host = t.host)
    (htrace : s.trace = t.trace) (hresponses : s.responses = t.responses) (hgets : s.gets = t.gets) : s = t := by
  cases s
  cases t
  simp_all

/-- A reset of a build and a 16-stage chain like those of `State.reset`, with nothing presented and nothing sampled. -/
theorem releaseReset_eq_reset {s : State} {c : Chain} (hb : s.build = State.reset.build) (hc : s.chain = some c)
    (hw : c.sr.length = 16) (hhost : s.host = []) (hgets : s.gets = 0) : releaseReset s = State.reset := by
  have hlegal : buildLegal s.build = true := by rw [hb]; rfl
  have hstateful : StatefulBuild 2 s := by
    rw [StatefulBuild, hb]
    exact ⟨rfl, by decide, by decide⟩
  apply state_eq_of_fields
  · rw [releaseReset_build, hb]
  · rw [releaseReset_shadow, resetShadow, hb]; rfl
  · rw [releaseReset_dir, hb]; rfl
  · rw [releaseReset_lvl hlegal, hb]; rfl
  · rw [releaseReset_chain_stateful hstateful hc hw.le, hw]; rfl
  · rw [releaseReset_host, hhost]; rfl
  · rw [releaseReset_trace, hb, reset_trace]
  · rw [releaseReset_responses]; rfl
  · rw [releaseReset_gets, hgets]; rfl

/-- Settles O49: a power-on has nothing presented and nothing sampled. -/
theorem resetStateFromAnyPowerOn : Obligations.ResetStateFromAnyPowerOn := by
  intro c hw
  rw [releaseReset_eq_reset (s := State.powerOn State.reset.build (some c)) rfl rfl hw rfl rfl]

/-- Settles O37: by O49 the state is what a reset leaves, and every reset establishes the invariants. -/
theorem resetMeetsInvariants : Obligations.ResetMeetsInvariants := by
  have hlen : (List.replicate 16 false).length = 16 := List.length_replicate
  rw [Obligations.ResetMeetsInvariants, resetStateFromAnyPowerOn ⟨List.replicate 16 false, List.replicate 16 false⟩ hlen]
  refine ⟨releaseReset_boundary rfl ?_ ?_, releaseReset_synced rfl, releaseReset_linesFollowTrace _,
    releaseReset_onlyPresentLines _, ?_, (releaseReset_silentAndEnabled _).trace, releaseReset_responses _⟩
  · intro hp
    cases hp
  · rintro c ⟨⟩
    exact ⟨rfl, by decide⟩
  · rw [releaseReset_trace]
    exact wellTimed_resetEvents _

end Sys2Proof.Machine
end

section
/-! Proofs of the laws of reading (40_protocol.md section 6): what `READBYTE` answers on a chain of at least eight stages and
how it turns or drains the chain. -/

namespace Sys2Proof.Machine

/-! ## A byte from its eight bits (R81, R84) -/

/-- The response of eight bits read, bit 7 first, has those bits. -/
theorem bitOf_readValue (f : Nat → Bool) {k : Nat} (hk : k < 8) :
    bitOf (BitVec.ofNat 8 (readValue [f 7, f 6, f 5, f 4, f 3, f 2, f 1, f 0])) k = f k := by
  rw [← readValueFrom_eight, bitOf]
  simp only [readValueFrom, getLsbD_assignBit hk]
  interval_cases k <;> rfl

/-- Reading a byte's bits in wire order gives the byte (R84). -/
theorem readValue_bitsMsbFirst (v : Byte) : BitVec.ofNat 8 (readValue (bitsMsbFirst v)) = v :=
  BitVec.eq_of_getLsbD_eq fun _ hk => bitOf_readValue (bitOf v) hk

theorem stageByte_eq_readValue (sr : List Bool) (i : Nat) : stageByte sr i =
    BitVec.ofNat 8 (readValue [sr.getD (8 * i + 7) false, sr.getD (8 * i + 6) false, sr.getD (8 * i + 5) false,
      sr.getD (8 * i + 4) false, sr.getD (8 * i + 3) false, sr.getD (8 * i + 2) false, sr.getD (8 * i + 1) false,
      sr.getD (8 * i + 0) false]) := by
  have hrange : List.range 8 = [0, 1, 2, 3, 4, 5, 6, 7] := rfl
  rw [stageByte, readValue, hrange]
  simp only [List.map_cons, List.map_nil, List.sum_cons, List.sum_nil, List.getD_cons_zero, List.getD_cons_succ]
  congr 1
  omega

/-- The byte in eight stages has the first of them as its bit 0 (R81). -/
theorem bitOf_stageByte (sr : List Bool) (i : Nat) {k : Nat} (hk : k < 8) :
    bitOf (stageByte sr i) k = sr.getD (8 * i + k) false := by
  rw [stageByte_eq_readValue]
  exact bitOf_readValue (fun k => sr.getD (8 * i + k) false) hk

/-- A chain of 8m stages is the ordered bits of its m bytes. -/
theorem orderedBits_stageBytes {sr : List Bool} {m : Nat} (h : sr.length = 8 * m) :
    orderedBits ((List.range m).map (stageByte sr)) = sr := by
  rw [orderedBits_eq_map_range]
  refine List.ext_getElem (by simp [h]) fun p hp hp' => ?_
  have hbyte : p / 8 < m := by omega
  have hp8 : 8 * (p / 8) + p % 8 = p := Nat.div_add_mod p 8
  simp [hbyte, bitOf_stageByte sr (p / 8) (Nat.mod_lt p (by decide)), hp8, hp']

/-! ## `READBYTE` on the last eight stages (R83) -/

/-- A `PROTOCOL` build that can read, between commands, on a chain with the given registers. -/
structure ReadsChain (sr st : List Bool) (s : State) : Prop where
  build : ProtocolBuild s
  dataOut : s.build.hasDout = true
  levels : Quiescent s
  chain : s.chain = some { sr := sr, st := st }

/-- Of at least eight stages, the last eight are presented last stage first, whether or not they are pushed back. -/
theorem bitPresented_append {front bits : List Bool} {j : Nat} (hj : j < bits.length) (pb : Bool) :
    bitPresented pb (front ++ bits) j = bits.reverse[j]? := by
  have hlt : j < (front ++ bits).length := by rw [List.length_append]; omega
  have hidx : (front ++ bits).length - 1 - j = front.length + (bits.length - 1 - j) := by
    rw [List.length_append]; omega
  unfold bitPresented
  rw [Nat.mod_eq_of_lt hlt, if_pos hlt, ite_self, hidx, List.getElem?_append_right (Nat.le_add_right ..),
    Nat.add_sub_cancel_left, List.getElem?_reverse hj]

theorem readsOf_eq_bitsMsbFirst {front st : List Bool} {v : Byte} {s : State}
    (hs : ReadsChain (front ++ bitsLsbFirst v) st s) (pb : Bool) : readsOf pb 8 s = bitsMsbFirst v := by
  obtain ⟨hk, -, hclear, -⟩ := hs.levels
  refine List.ext_getElem? fun j => ?_
  by_cases hj : j < 8
  · rw [readsOf_getElem? pb hj hs.dataOut hk hclear hs.chain (by simp [bitsLsbFirst]),
      bitPresented_append hj]
    rfl
  · rw [List.getElem?_eq_none (by simpa using hj), List.getElem?_eq_none (by simpa [bitsMsbFirst] using hj)]

/-- Bits pushed displace as many from the last stages. -/
theorem pushStages_append_sr {bits last : List Bool} (h : bits.length = last.length) (front st : List Bool) :
    pushStages bits { sr := front ++ last, st := st } = { sr := bits ++ front, st := st } := by
  have hlen : (bits ++ front).length = (front ++ last).length := by
    rw [List.length_append, List.length_append, h, Nat.add_comm]
  rw [pushStages, ← List.append_assoc, List.take_left' hlen]

/-- `READBYTE` answers the byte in the last eight stages; every other bit moves eight stages on, behind the byte where it is
pushed back and behind zeros where it is not (R91, R92). -/
theorem exec_readByte_last {front st : List Bool} {v : Byte} {s : State}
    (hs : ReadsChain (front ++ bitsLsbFirst v) st s) (pb : Bool) :
    ∃ t, exec (.readByte pb) s = .next t ∧ t.responses = s.responses ++ [v] ∧
      ReadsChain (bitsLsbFirst (if pb then v else 0) ++ front) st t := by
  have hreads := readsOf_eq_bitsMsbFirst hs pb
  refine ⟨_, exec_readByte hs.build pb, by rw [hreads, readValue_bitsMsbFirst], hs.build, hs.dataOut, ?_, ?_⟩
  · obtain ⟨-, hl, hclear, ho⟩ := hs.levels
    exact ⟨rfl, hl, hclear, ho⟩
  · have hpushed : ((bitsMsbFirst v).map (pb && ·)).reverse = bitsLsbFirst (if pb then v else 0) := by
      cases pb <;> simp [bitsMsbFirst, bitsLsbFirst, bitOf]
    have hlen : (bitsLsbFirst (if pb then v else 0)).length = (bitsLsbFirst v).length := rfl
    refine (map_chainRun_reads hs.levels pb _).trans ?_
    rw [hreads, hpushed, hs.chain, Option.map_some, pushStages_append_sr hlen]

/-! ## The laws (R90 to R92) -/

/-- On a chain of eight stages `PUSHBYTE` leaves exactly its byte. -/
theorem exec_pushByte_eight {s : State} {c : Chain} (hp : ProtocolBuild s) (hd : s.build.hasDout = true)
    (hq : Quiescent s) (hc : s.chain = some c) (hw : c.sr.length = 8) (v : Byte) :
    ∃ t, exec (.pushByte v) s = .next t ∧ t.responses = s.responses ∧ ReadsChain (bitsLsbFirst v) c.st t := by
  obtain ⟨oc, hx, hoc⟩ := pushByteShiftsMostSignificantFirst v s hp
  obtain rfl := hoc hq
  obtain ⟨-, hl, hclear, ho⟩ := hq
  refine ⟨_, hx, rfl, hp, hd, ⟨rfl, hl, hclear, ho⟩, ?_⟩
  have hpushed := pushStages_append_sr (bits := bitsLsbFirst v) (last := c.sr) hw.symm [] c.st
  rw [List.nil_append, List.append_nil] at hpushed
  simp only [hc, Option.map_some, hpushed]

/-- Settles O23: the byte pushed fills the eight stages, and reading it with push-back puts it where it was. -/
theorem peekLaw : Obligations.PeekLaw := by
  intro v s c hp hd hq hc hw
  obtain ⟨t, ht, hresp, hchain⟩ := exec_pushByte_eight hp hd hq hc hw v
  obtain ⟨u, hu, hresp', hchain'⟩ := exec_readByte_last (front := []) hchain true
  refine ⟨t, u, ht, hu, by rw [hresp', hresp], hchain.chain, ?_⟩
  rw [hchain'.chain, hchain.chain, if_pos rfl, List.append_nil]

/-- Settles O24: what is read is the last byte; without push-back zeros follow it, which are what an eight-stage chain then
holds. -/
theorem drainLaw : Obligations.DrainLaw := by
  intro v front st s hp hd hq hc
  have hs : ReadsChain (front ++ bitsLsbFirst v) st s := ⟨hp, hd, hq, hc⟩
  obtain ⟨t, ht, hresp, hdrained⟩ := exec_readByte_last hs false
  refine ⟨t, ht, hresp, fun k hk => ?_, by rw [hdrained.chain]; rfl, ?_, ?_⟩
  · cases hdrained.chain.symm.trans hk
    have hzeros : bitsLsbFirst 0 = List.replicate 8 false := by decide
    rw [if_neg Bool.false_ne_true, hzeros]
    exact List.take_left' List.length_replicate
  · rintro rfl pb
    obtain ⟨u, hu, hresp', -⟩ := exec_readByte_last (front := []) (by simpa using hdrained) pb
    exact ⟨u, hu, hresp'⟩
  · rintro rfl - pb
    obtain ⟨u, hu, hresp', -⟩ := exec_readByte_last hs pb
    exact ⟨u, hu, hresp'⟩

/-- Settles O25: with push-back the byte read comes in front of every other bit. -/
theorem readByteRotatesLongChain : Obligations.ReadByteRotatesLongChain := by
  intro v front st s hp hd hq hc
  obtain ⟨t, ht, hresp, hturned⟩ := exec_readByte_last ⟨hp, hd, hq, hc⟩ true
  exact ⟨t, ht, hresp, hturned.chain⟩

theorem execAll_cons {i : Instr} {s t : State} (h : exec i s = .next t) (is : List Instr) :
    execAll (i :: is) s = execAll is t := by
  simp only [execAll, h]

/-- As many reads with push-back as `back` has bytes answer them, last one first, and bring them in front of the others. -/
theorem execAll_readByte_bytes (front back : List Byte) {st : List Bool} {s : State}
    (hs : ReadsChain (orderedBits (front ++ back)) st s) :
    ∃ t, execAll (List.replicate back.length (.readByte true)) s = .next t ∧
      t.responses = s.responses ++ back.reverse ∧ ReadsChain (orderedBits (back ++ front)) st t := by
  induction back using List.reverseRecOn generalizing front s with
  | nil => exact ⟨s, rfl, by simp, by simpa using hs⟩
  | append_singleton back v ih =>
    have hlast : orderedBits (front ++ (back ++ [v])) = orderedBits (front ++ back) ++ bitsLsbFirst v := by
      simp [orderedBits]
    rw [hlast] at hs
    obtain ⟨t, ht, hresp, hturned⟩ := exec_readByte_last hs true
    have hfront : bitsLsbFirst v ++ orderedBits (front ++ back) = orderedBits ((v :: front) ++ back) := rfl
    rw [if_pos rfl, hfront] at hturned
    obtain ⟨u, hu, hresp', hturned'⟩ := ih (v :: front) hturned
    refine ⟨u, ?_, ?_, ?_⟩
    · rw [List.length_append, List.length_singleton, List.replicate_succ, execAll_cons ht, hu]
    · rw [hresp', hresp]
      simp
    · simpa using hturned'

/-- Settles O26: the chain is the ordered bits of its m bytes, which m reads bring round once. -/
theorem bucketBrigadeReadsWholeChain : Obligations.BucketBrigadeReadsWholeChain := by
  intro m s c hp hd hq hc hw
  have hbits := orderedBits_stageBytes hw
  obtain ⟨t, ht, hresp, hturned⟩ := execAll_readByte_bytes [] ((List.range m).map (stageByte c.sr)) (st := c.st) (s := s)
    ⟨hp, hd, hq, by rw [List.nil_append, hbits, hc]⟩
  rw [List.append_nil, hbits] at hturned
  rw [List.length_map, List.length_range] at ht
  refine ⟨t, ht, hturned.chain, ?_⟩
  rw [hresp]
  congr 1
  exact List.ext_getElem (by simp) fun j _ _ => by simp

end Sys2Proof.Machine
end

section
/-! Proofs of the counts of 70_reset_and_hazards.md section 5: how many events a command issues and how long they last at
least. -/

namespace Sys2Proof.Machine

/-- A list of events of a given length whose delays add up to a given number of microseconds. -/
def Costs (es : List Event) (events micros : Nat) : Prop :=
  es.length = events ∧ (es.map Event.leastMicros).sum = micros

theorem costs_nil : Costs [] 0 0 := ⟨rfl, rfl⟩

theorem Costs.append {es fs : List Event} {m n u w : Nat} (hes : Costs es m u) (hfs : Costs fs n w) :
    Costs (es ++ fs) (m + n) (u + w) := by
  obtain ⟨rfl, rfl⟩ := hes
  obtain ⟨rfl, rfl⟩ := hfs
  exact ⟨List.length_append, by rw [List.map_append, List.sum_append]⟩

/-- Blocks of events of the same cost add up. -/
theorem costs_flatMap {α : Type} {f : α → List Event} {m u : Nat} (h : ∀ a, Costs (f a) m u) (as : List α) :
    Costs (as.flatMap f) (m * as.length) (u * as.length) := by
  induction as with
  | nil => exact costs_nil
  | cons a as ih =>
    rw [List.flatMap_cons, List.length_cons, Nat.mul_succ, Nat.mul_succ, Nat.add_comm _ m, Nat.add_comm _ u]
    exact (h a).append ih

/-- Events issued only under a condition cost nothing where it fails. -/
theorem costs_ite {p : Prop} [Decidable p] {es : List Event} {m u : Nat} (h : Costs es m u) :
    Costs (if p then es else []) (if p then m else 0) (if p then u else 0) := by
  split
  · exact h
  · exact costs_nil

/-- One event that is not a delay, issued only under a condition. -/
theorem costs_ite_singleton {p : Prop} [Decidable p] {e : Event} (h : e.leastMicros = 0) :
    Costs (if p then [e] else []) (if p then 1 else 0) 0 := by
  have hite := costs_ite (p := p) (es := [e]) (m := 1) (u := 0) ⟨rfl, by simp [h]⟩
  rwa [ite_self] at hite

theorem costs_pushBitTrace (x : Bool) : Costs (pushBitTrace x) 4 5 := ⟨rfl, rfl⟩

theorem costs_clearTrace : Costs clearTrace 3 5 := ⟨rfl, rfl⟩

theorem costs_showTrace : Costs showTrace 3 5 := ⟨rfl, rfl⟩

theorem costs_pushByteTrace (v : Byte) : Costs (pushByteTrace v) 32 40 :=
  costs_flatMap costs_pushBitTrace (bitsMsbFirst v)

theorem costs_readIterationTrace (hasDout pb r : Bool) :
    Costs (readIterationTrace hasDout pb r) (if hasDout then 5 else 4) 5 := by
  cases hasDout <;> exact ⟨rfl, rfl⟩

theorem costs_loadTrace (bits : List Bool) : Costs (loadTrace bits) (4 * bits.length + 3) (5 * bits.length + 5) :=
  (costs_flatMap costs_pushBitTrace bits).append costs_showTrace

/-- A flush of N bytes is N byte pushes and a latch pulse. -/
theorem costs_flushTrace (shadow : List Byte) :
    Costs (flushTrace shadow) (32 * shadow.length + 3) (40 * shadow.length + 5) := by
  have hpushes := costs_flatMap costs_pushByteTrace shadow.reverse
  rw [List.length_reverse] at hpushes
  exact hpushes.append costs_showTrace

/-- The hardware clear costs one pulse more than the flush, the flood as much as N more byte pushes (R158). -/
theorem costs_clearRegisterTrace (hasClear : Bool) (n : Nat) : Costs (clearRegisterTrace hasClear n)
    (if hasClear then 32 * n + 6 else 64 * n + 3) (if hasClear then 40 * n + 10 else 80 * n + 5) := by
  cases hasClear with
  | true =>
    have h := costs_clearTrace.append (costs_flushTrace (List.replicate n 0))
    have hevents : 3 + (32 * n + 3) = 32 * n + 6 := by omega
    have hmicros : 5 + (40 * n + 5) = 40 * n + 10 := by omega
    rw [List.length_replicate, hevents, hmicros] at h
    exact h
  | false =>
    have h := costs_loadTrace (List.replicate (16 * n) false)
    have hevents : 4 * (16 * n) + 3 = 64 * n + 3 := by omega
    have hmicros : 5 * (16 * n) + 5 = 80 * n + 5 := by omega
    rw [List.length_replicate, hevents, hmicros, ← clearRegisterTrace_false] at h
    exact h

/-- R161's table, row by row. -/
theorem costs_commandEvents (i : Instr) (s : State) :
    Costs (commandEvents i s) (eventCount s.build (buildBytes s.build) i) (leastDuration s.build (buildBytes s.build) i) := by
  cases i with
  | pushBit x => exact costs_pushBitTrace x
  | pushByte v => exact costs_pushByteTrace v
  | readBit => exact costs_ite_singleton rfl
  | readByte pb =>
    have h := costs_flatMap (costs_readIterationTrace s.build.hasDout pb) (readsOf pb 8 s)
    rw [readsOf_length] at h
    cases hd : s.build.hasDout <;> simpa [commandEvents, eventCount, leastDuration, hd] using h
  | clear => exact costs_ite costs_clearTrace
  | showOut => exact costs_showTrace
  | setOe x => exact costs_ite_singleton rfl
  | sClear => exact costs_clearRegisterTrace s.build.hasClear _
  | sWrite pin x =>
    have h := costs_flushTrace (shadowBytes (buildBytes s.build) (writeShadowBit pin x s))
    rw [shadowBytes, List.length_map, List.length_range] at h
    exact costs_ite h

/-- Settles O51: a command that completes appends the events of `commandEvents`. -/
theorem eventCountsAndDurations : Obligations.EventCountsAndDurations := by
  intro i s t h
  obtain ⟨-, -, rfl⟩ := exec_next i s t h
  exact ⟨commandEvents i s, issueAll_trace _ _, costs_commandEvents i s⟩

end Sys2Proof.Machine
end

section
/-! Proofs of the write laws (41_stateful.md section 4): what a valid `SWRITE` makes of each logical output. -/

namespace Sys2Proof.Machine

/-- A write of one bit leaves every other bit of every byte as it was (R103 (d), R104). -/
theorem logicalOutput_writeShadowBit {s : State} {p : Nat} (hp : p / 8 < s.shadow.length) (a : Bool) (k : Nat) :
    logicalOutput (writeShadowBit p a s) k = if k = p then a else logicalOutput s k := by
  have hk : k % 8 < 8 := Nat.mod_lt k (by decide)
  have hindex : k = p ↔ k / 8 = p / 8 ∧ k % 8 = p % 8 := by omega
  by_cases hbyte : k / 8 = p / 8
  · have hread : shadowByte (writeShadowBit p a s) (p / 8) = assignBit (shadowByte s (p / 8)) (p % 8) a := by
      simp [shadowByte, writeShadowBit, pinByte, pinBit, hp]
    simp only [logicalOutput, bitOf, hread, getLsbD_assignBit hk, hindex, hbyte, true_and]
  · have hread : shadowByte (writeShadowBit p a s) (k / 8) = shadowByte s (k / 8) := by
      simp [shadowByte, writeShadowBit, pinByte, Ne.symm hbyte]
    simp only [logicalOutput, hread, hindex, hbyte, false_and, if_false]

/-- Everything of a valid `SWRITE` that a further write of the buffer depends on. -/
theorem exec_sWrite_logicalOutput {n p : Nat} {s : State} (hb : StatefulBuild n s) (hs : ShadowSized s) (hp : p < 8 * n)
    (a : Bool) : ∃ t, exec (.sWrite p a) s = .next t ∧ StatefulBuild n t ∧ ShadowSized t ∧
      ∀ k, logicalOutput t k = if k = p then a else logicalOutput s k := by
  have hbyte : p / 8 < s.shadow.length := by rw [shadow_length_of_shadowSized hb hs]; omega
  refine ⟨_, exec_sWrite_valid hb hs (by omega) (by omega) a, ?_, ?_, fun k => ?_⟩
  · rw [StatefulBuild, issueAll_build]
    exact hb
  · rw [ShadowSized, issueAll_shadow, issueAll_build, writeShadowBit_shadow_length]
    exact hs
  · rw [logicalOutput_issueAll, logicalOutput_writeShadowBit hbyte]

/-- The logical outputs determine the shadow buffer. -/
theorem shadow_eq_of_logicalOutput {s t : State} (hlen : s.shadow.length = t.shadow.length)
    (h : ∀ k, logicalOutput s k = logicalOutput t k) : s.shadow = t.shadow := by
  refine List.ext_getElem hlen fun i hi hi' => BitVec.eq_of_getLsbD_eq fun j hj => ?_
  have hbyte : (8 * i + j) / 8 = i := by omega
  have hbit : (8 * i + j) % 8 = j := by omega
  simpa [logicalOutput, bitOf, shadowByte, hbyte, hbit, hi, hi'] using h (8 * i + j)

/-- Settles O32: each part is about the logical outputs after one or two writes, and these determine the buffer. -/
theorem writeLaws : Obligations.WriteLaws := by
  intro n p q a b s hb hs hp hq
  refine ⟨?_, ?_, fun hne => ?_⟩
  · obtain ⟨t, ht, -, -, hout⟩ := exec_sWrite_logicalOutput hb hs hp a
    exact ⟨t, ht, fun k _ => hout k⟩
  · obtain ⟨t, ht, hbt, hst, hout⟩ := exec_sWrite_logicalOutput hb hs hp true
    obtain ⟨u, hu, hbu, hsu, hout'⟩ := exec_sWrite_logicalOutput hbt hst hp false
    have hboth : ∀ k, logicalOutput u k = if k = p then false else logicalOutput s k := fun k => by
      rw [hout' k, hout k]
      split <;> rfl
    refine ⟨t, u, ht, hu, fun k _ => hboth k, fun hzero => ?_⟩
    refine shadow_eq_of_logicalOutput ?_ fun k => ?_
    · rw [shadow_length_of_shadowSized hbu hsu, shadow_length_of_shadowSized hb hs]
    · rw [hboth k]
      split
      next hk => rw [hk, hzero]
      · rfl
  · obtain ⟨t, ht, hbt, hst, hout⟩ := exec_sWrite_logicalOutput hb hs hp a
    obtain ⟨u, hu, hbu, hsu, hout'⟩ := exec_sWrite_logicalOutput hbt hst hq b
    obtain ⟨t', ht', hbt', hst', hrev⟩ := exec_sWrite_logicalOutput hb hs hq b
    obtain ⟨u', hu', hbu', hsu', hrev'⟩ := exec_sWrite_logicalOutput hbt' hst' hp a
    refine ⟨t, u, t', u', ht, hu, ht', hu', shadow_eq_of_logicalOutput ?_ fun k => ?_⟩
    · rw [shadow_length_of_shadowSized hbu hsu, shadow_length_of_shadowSized hbu' hsu']
    · rw [hout' k, hout k, hrev' k, hrev k]
      by_cases hkp : k = p
      · subst hkp
        rw [if_neg hne, if_pos rfl, if_pos rfl]
      · rw [if_neg hkp, if_neg hkp]

end Sys2Proof.Machine
end
